-- ==== Sys2Proof/Word.lean ====
section
/-! DEFINITION. The value a memory cell, a queue element or an ALU result holds: a signed integer. -/

namespace Sys2Proof

/-- The content of one cell: "a signed integer" (R11, R31). The width `W` is a parameter (R5), so the
type is the integers, and `Sys2Proof.Machine.inRange` says which integers a cell of width `W` holds.
Data (cells, queues, programs) is written with this name; arithmetic on a value is on `Int`. -/
abbrev Word := Int

end Sys2Proof
end

