-- ==== Sys2Proof/Syntax.lean ====
section
/-! DEFINITION. Parameter modes, operations and instructions: the decoded view of an instruction word. -/

namespace Sys2Proof

/-- Parameter mode of an operand (R54, R55): digit 0 is Position, digit 1 is Immediate. -/
inductive Mode where
  | position
  | immediate
deriving DecidableEq, Repr

/-- Role of an operand (R52, R73): a source's value is read, a destination names the cell written. -/
inductive Role where
  | source
  | destination
deriving DecidableEq, Repr

/-- The nine operations, "a closed set of variants" (R52, R62), under their mnemonics of R52. -/
inductive Op where
  | add
  | mul
  | inp
  | out
  | jt
  | jf
  | lt
  | eq
  | hlt
deriving DecidableEq, Repr

/-- All nine operations, in the order of the table of R52. -/
def Op.all : List Op := [.add, .mul, .inp, .out, .jt, .jf, .lt, .eq, .hlt]

/-- A decoded instruction (R57): the operation and the mode its word encodes for each operand it has.
A destination's encoded mode is kept although it selects nothing (R61), so that no digit is lost.
The operand cells are no part of it: decoding "reads nothing but `w`" (R57, R72), and they are read
from memory when the instruction executes (R75). -/
inductive Instr where
  /-- ADD, R90: sources 1 and 2, destination 3. -/
  | add (m1 m2 m3 : Mode)
  /-- MUL, R91: sources 1 and 2, destination 3. -/
  | mul (m1 m2 m3 : Mode)
  /-- IN, R95: destination 1. -/
  | inp (m1 : Mode)
  /-- OUT, R96: source 1. -/
  | out (m1 : Mode)
  /-- JT, R100: condition 1, target 2. -/
  | jt (m1 m2 : Mode)
  /-- JF, R101: condition 1, target 2. -/
  | jf (m1 m2 : Mode)
  /-- LT, R105: sources 1 and 2, destination 3. -/
  | lt (m1 m2 m3 : Mode)
  /-- EQ, R106: sources 1 and 2, destination 3. -/
  | eq (m1 m2 m3 : Mode)
  /-- HLT, R110: no operand. -/
  | hlt
deriving DecidableEq, Repr

/-- The operation an instruction performs. -/
def Instr.op : Instr → Op
  | .add _ _ _ => .add
  | .mul _ _ _ => .mul
  | .inp _ => .inp
  | .out _ => .out
  | .jt _ _ => .jt
  | .jf _ _ => .jf
  | .lt _ _ _ => .lt
  | .eq _ _ _ => .eq
  | .hlt => .hlt

/-- The encoded modes of an instruction's operands, operand 1 first. -/
def Instr.modes : Instr → List Mode
  | .add m1 m2 m3 => [m1, m2, m3]
  | .mul m1 m2 m3 => [m1, m2, m3]
  | .inp m1 => [m1]
  | .out m1 => [m1]
  | .jt m1 m2 => [m1, m2]
  | .jf m1 m2 => [m1, m2]
  | .lt m1 m2 m3 => [m1, m2, m3]
  | .eq m1 m2 m3 => [m1, m2, m3]
  | .hlt => []

end Sys2Proof
end

