-- ==== Sys2Proof/Config.lean ====
section
/-! DEFINITION. The parameters of the hardware (R5): W, OVF, OPMAP, OPSET, and the spec's defaults.
There is no free value: the spec yields no unspecified value (93_implementation_defined.md, Part 1). -/

namespace Sys2Proof

/-- `OVF` (R5, R92): what ADD and MUL do with an exact result outside the cell range. -/
inductive Ovf where
  | fault
  | wrap
deriving DecidableEq, Repr

/-- One value of `α` for each of the nine operations. -/
structure PerOp (α : Type) where
  add : α
  mul : α
  inp : α
  out : α
  jt : α
  jf : α
  lt : α
  eq : α
  hlt : α
deriving DecidableEq, Repr

/-- The entry of one operation. -/
def PerOp.get {α : Type} (p : PerOp α) : Op → α
  | .add => p.add
  | .mul => p.mul
  | .inp => p.inp
  | .out => p.out
  | .jt => p.jt
  | .jf => p.jf
  | .lt => p.lt
  | .eq => p.eq
  | .hlt => p.hlt

/-- The open parameters of R5; `N` is not among them, since LOAD fixes it (R116). -/
structure Config where
  /-- `W`: the width of a cell in bits; `none` is `W = inf`, unbounded integers (R5, D2). -/
  width : Option Nat
  /-- `OVF` (R5, D3). -/
  ovf : Ovf
  /-- `OPMAP`: the opcode id of each operation (R5, R52, D1). -/
  opmap : PerOp Nat
  /-- `OPSET`: which operations the Opcode Table holds (R5, R60, D26). -/
  opset : PerOp Bool
deriving DecidableEq, Repr

/-- The default `OPMAP` of R5 and R52. PRESUMED (log 6): ids 3, 4, 5, 6 and 8 are the spec's
"[from general knowledge, not in source]" (R67, D1); unsafe for a claim about words with these ids
if the original used others. -/
def Config.defaultOpmap : PerOp Nat :=
  { add := 1, mul := 2, inp := 3, out := 4, jt := 5, jf := 6, lt := 7, eq := 8, hlt := 99 }

/-- The default `OPSET` of R5: all nine operations. -/
def Config.allOps : PerOp Bool :=
  { add := true, mul := true, inp := true, out := true, jt := true, jf := true, lt := true,
    eq := true, hlt := true }

/-- The default configuration of R5: `W = 64`, `OVF = fault`, default `OPMAP`, all nine operations. -/
def Config.default : Config :=
  { width := some 64, ovf := .fault, opmap := Config.defaultOpmap, opset := Config.allOps }

end Sys2Proof
end

