-- ==== Sys2Proof/WellFormed.lean ====
section
/-! DEFINITION. Which configurations are legal (R5) and which instructions a configuration has (R60). -/

namespace Sys2Proof

/-- `W >= 18`, so that every five-digit word fits in a cell; `W = inf` is legal (R5, D2). -/
def Config.widthOk (c : Config) : Bool :=
  match c.width with
  | none => true
  | some n => decide (18 ≤ n)

/-- Every opcode id is a two-digit decimal number: the field `OP` is `w mod 100` (R51).
DEDUCED (log 5): an id of 100 or more could never be decoded; safe, it only excludes tables. -/
def Config.idsTwoDigits (c : Config) : Bool :=
  Op.all.all fun op => decide (c.opmap.get op < 100)

/-- No two operations share an opcode id: the id identifies the operation (R9, R52).
DEDUCED (log 5): the spec calls it "the integer identifying which Operation an instruction performs";
safe, it only excludes tables. -/
def Config.idsDistinct (c : Config) : Bool :=
  decide ((Op.all.map fun op => c.opmap.get op).Nodup)

/-- A legal configuration (R5). `OPSET` has no condition: "any subset is a legal configuration". -/
def Config.wf (c : Config) : Bool :=
  c.widthOk && c.idsTwoDigits && c.idsDistinct

/-- An instruction is well formed for a configuration when its operation is in `OPSET` (R60); the
modes of its operands are legal by their type (R54). -/
def Instr.wf (c : Config) (i : Instr) : Bool :=
  c.opset.get i.op

end Sys2Proof
end

