-- ==== Sys2Proof/Decode.lean ====
section
/-! DEFINITION. The Opcode Table (R52), the decoder (R57) and, after it, the encoder (R51, R53). -/

namespace Sys2Proof

/-- Operand count of an operation (R52). -/
def Op.operands : Op → Nat
  | .add => 3
  | .mul => 3
  | .inp => 1
  | .out => 1
  | .jt => 2
  | .jf => 2
  | .lt => 3
  | .eq => 3
  | .hlt => 0

/-- Width in cells: the opcode word and the operand words, `1 + n` (R50, R52). -/
def Op.width (op : Op) : Nat := 1 + op.operands

/-- Role of operand `i` (R52, R73): operand 3 of ADD, MUL, LT, EQ and operand 1 of IN are
destinations, every other operand an operation has is a source. -/
def Op.role : Op → Nat → Role
  | .add, 3 => .destination
  | .mul, 3 => .destination
  | .lt, 3 => .destination
  | .eq, 3 => .destination
  | .inp, 1 => .destination
  | _, _ => .source

/-- The decimal digit of weight `10^k` (R6). -/
def digit (w k : Nat) : Nat := w / 10 ^ k % 10

/-- The operation in `OPSET` whose id is `id` (R52, R60). -/
def opOf (c : Config) (id : Nat) : Option Op :=
  Op.all.find? fun op => c.opset.get op && c.opmap.get op == id

/-- mode(0) = Position, mode(1) = Immediate (R54, R57); applied to the digits 0 and 1 only. -/
def modeOf (d : Nat) : Mode := if d = 0 then .position else .immediate

/-- The digit of a mode (R54). -/
def modeDigit : Mode → Nat
  | .position => 0
  | .immediate => 1

/-- The instruction of an operation with the modes of its operands; modes beyond the operand count
are dropped. -/
def instrOf (op : Op) (m1 m2 m3 : Mode) : Instr :=
  match op with
  | .add => .add m1 m2 m3
  | .mul => .mul m1 m2 m3
  | .inp => .inp m1
  | .out => .out m1
  | .jt => .jt m1 m2
  | .jf => .jf m1 m2
  | .lt => .lt m1 m2 m3
  | .eq => .eq m1 m2 m3
  | .hlt => .hlt

/-- Why a word is no instruction. Each is the fault `DecodeError` (R57, R131); the names are the
model's (log 8), since "the order of the checks inside `decode` cannot be observed". -/
inductive DecodeReject where
  /-- (d) the word is negative (R59, D5). -/
  | negativeWord
  /-- (a) `OP` is the id of no operation in `OPSET` (R60). -/
  | unknownOpcode
  /-- (b) a mode digit of an operand the operation has is not 0 or 1 (R58). -/
  | badModeDigit
  /-- (c) a mode digit beyond the operand count is not 0 (R59, D4). -/
  | unusedDigit
  /-- (c) a digit of weight 10^5 or more is not 0 (R59, D4). -/
  | highDigits
deriving DecidableEq, Repr

/-- Some mode digit of operands 1 to `n` is not 0 or 1 (check (b) of R57). -/
def usedDigitBad (n a b c : Nat) : Bool :=
  (decide (1 ≤ n) && decide (1 < a)) || (decide (2 ≤ n) && decide (1 < b))
    || (decide (3 ≤ n) && decide (1 < c))

/-- Some mode digit of operands `n + 1` to 3 is not 0 (check (c) of R57). -/
def unusedDigitSet (n a b c : Nat) : Bool :=
  (decide (n < 1) && decide (a ≠ 0)) || (decide (n < 2) && decide (b ≠ 0))
    || (decide (n < 3) && decide (c ≠ 0))

/-- `decode` of R57 on a non-negative word: `OP = w mod 100`, `A`, `B`, `C` the digits of weight
10^2, 10^3, 10^4, `HI = w div 100000` (R51). -/
def decodeNat (cfg : Config) (w : Nat) : Except DecodeReject Instr :=
  match opOf cfg (w % 100) with
  | none => .error .unknownOpcode
  | some op =>
    if usedDigitBad op.operands (digit w 2) (digit w 3) (digit w 4) then .error .badModeDigit
    else if unusedDigitSet op.operands (digit w 2) (digit w 3) (digit w 4) then .error .unusedDigit
    else if w / 100000 ≠ 0 then .error .highDigits
    else .ok (instrOf op (modeOf (digit w 2)) (modeOf (digit w 3)) (modeOf (digit w 4)))

/-- The decoder (R57): a total function from a cell value to an instruction or a rejection by name. -/
def decode (cfg : Config) (w : Int) : Except DecodeReject Instr :=
  if w < 0 then .error .negativeWord else decodeNat cfg w.toNat

/-- The mode digit of operand `k + 1`, 0 where the operation has no such operand (R51, R53). -/
def encodedDigit (ms : List Mode) (k : Nat) : Nat :=
  match ms[k]? with
  | some m => modeDigit m
  | none => 0

/-- The encoder (R51, R53): the instruction word `C B A OP` as a decimal numeral. The operand cells
that follow it hold any values (R56). -/
def encode (cfg : Config) (i : Instr) : Int :=
  ((cfg.opmap.get i.op + 100 * encodedDigit i.modes 0 + 1000 * encodedDigit i.modes 1
    + 10000 * encodedDigit i.modes 2 : Nat) : Int)

/-- Cell `k` of a bit string `w` laid out as cells of `bits` bits, cell 0 in the least significant
bits, each read as a two's complement integer (R5, R31; log 14). Only the two hooks below and
`placeWords` use it: the architecture has no bit numbering (R6). -/
def bitsCell (bits w k : Nat) : Int :=
  let x := w / 2 ^ (bits * k) % 2 ^ bits
  if x < 2 ^ (bits - 1) then (x : Int) else (x : Int) - ((2 ^ bits : Nat) : Int)

/-- The instruction the decoder reads from an instruction whose bits are `w`, under the default
configuration: the instruction word is the first 64-bit cell, and every bit above `nbits` is 0
already. Decoding reads nothing but the instruction word (R57). -/
def decodeTableWord (_nbits w : Nat) : Option Instr :=
  (decode Config.default (bitsCell 64 w 0)).toOption

end Sys2Proof
end

