-- ==== Sys2Proof/Machine/State.lean ====
section
/-! DEFINITION. The architectural state (R10) as plain data, its reset value (R24), and the reasons a
step could stop. -/

namespace Sys2Proof.Machine

/-- `STATUS` (R14). -/
inductive Status where
  | running
  | halted
  | faulted
deriving DecidableEq, Repr

/-- The kinds of fault `FAULT` can hold (R15, R130). -/
inductive FaultKind where
  | decodeError
  | addressFault
  | inputStarved
  | overflow
deriving DecidableEq, Repr

/-- `MEM` (R11): `size` is `N`, the number of cells; `cells` lists the cells that do not hold 0, as
(address, value) pairs with rising addresses. DESIGN CHOICE (log 3): a form of the sequence of R11 in
which equal memories are equal data; safe. -/
structure Memory where
  size : Nat
  cells : List (Nat × Word)
deriving DecidableEq, Repr

/-- The canonical form: addresses strictly rising, no listed value 0 (what an unlisted address of
`[0, N)` holds), no address at or above `N`. -/
abbrev Memory.wf (m : Memory) : Prop :=
  m.cells.Pairwise (fun x y => x.1 < y.1) ∧ ∀ c ∈ m.cells, c.2 ≠ 0 ∧ c.1 < m.size

/-- One instance of the core (R10), with the configuration it was made under. -/
structure State where
  /-- The parameters of R5, fixed before LOAD (R151); no step and no transaction changes them (R22).
  DESIGN CHOICE (log 1): carried here because `step` takes no other argument; safe. -/
  cfg : Config
  /-- `MEM` and its length `N` (R11). -/
  mem : Memory
  /-- `IP` (R12). -/
  ip : Nat
  /-- `INQ`, front first (R17). -/
  inq : List Word
  /-- `OUTQ`, front first (R18). -/
  outq : List Word
  /-- `STATUS` (R14). -/
  status : Status
  /-- `FAULT` (R15); `none` is the spec's None. -/
  fault : Option FaultKind
deriving DecidableEq, Repr

/-- Why the model stops with a host fault: never. Every fault of the hardware has an entry the spec
describes (R136), so the model takes it as a next state, and nothing is stuck (R148; log 12). -/
inductive Fault where
deriving DecidableEq, Repr

/-- Why the model gives an instruction no meaning. -/
inductive Refusal where
  /-- Raised only by an arm of `exec` whose instruction has no meaning yet; there is none left. Safe. -/
  | notModelled (mnemonic : String)
deriving DecidableEq, Repr

/-- The state after reset: LOAD is the only reset (R150), and R24 gives every field's value for a
given program. DESIGN CHOICE (log 2): the empty program, under the default configuration, so that no
program is invented here; its first step raises `AddressFault` (R71, R116). Safe. -/
def State.reset : State :=
  { cfg := Config.default
    mem := { size := 0, cells := [] }
    ip := 0
    inq := []
    outq := []
    status := .running
    fault := none }

end Sys2Proof.Machine
end

