-- ==== Sys2Proof/Machine/Ops.lean ====
section
/-! DEFINITION. The named operations over memory, the queues, IP and STATUS, and the entry of a fault. -/

namespace Sys2Proof.Machine

/-! ### Memory -/

/-- What an unlisted address of `[0, N)` holds (log 3). -/
def unlisted : Int := 0

/-- The value listed for an address, or what an unlisted address holds. -/
def cellsGet : List (Nat × Word) → Nat → Int
  | [], _ => unlisted
  | (b, x) :: rest, a => if b = a then x else cellsGet rest a

/-- Puts a pair before the first larger address. -/
def cellsInsert : List (Nat × Word) → Nat → Int → List (Nat × Word)
  | [], a, v => [(a, v)]
  | (b, x) :: rest, a, v =>
    if a < b then (a, v) :: (b, x) :: rest else (b, x) :: cellsInsert rest a v

/-- Replaces whatever is listed for an address; the value of an unlisted address is not listed. -/
def cellsPut (cells : List (Nat × Word)) (a : Nat) (v : Int) : List (Nat × Word) :=
  let others := cells.filter fun c => c.1 != a
  if v = unlisted then others else cellsInsert others a v

/-- `MEM[a]` for an address already checked. -/
def Memory.get (m : Memory) (a : Nat) : Int := cellsGet m.cells a

/-- `MEM[a] <- v` for an address already checked; no other cell changes. -/
def Memory.put (m : Memory) (a : Nat) (v : Int) : Memory :=
  { m with cells := cellsPut m.cells a v }

/-- The bounds check (R32): an address is valid iff `0 <= a < N`. -/
def Memory.valid (m : Memory) (a : Int) : Bool := decide (0 ≤ a) && decide (a < (m.size : Int))

/-- `MemRead(a, 1)` (R33): `none` where the rule raises `AddressFault`. -/
def Memory.read (m : Memory) (a : Int) : Option Int :=
  if m.valid a then some (m.get a.toNat) else none

/-- `MemWrite(a, 1, v)` (R34): `none` where the rule raises `AddressFault`. -/
def Memory.write (m : Memory) (a : Int) (v : Int) : Option Memory :=
  if m.valid a then some (m.put a.toNat v) else none

/-- The cells of a sequence, element 0 at address `a`. -/
def cellsOfList : Nat → List Word → List (Nat × Word)
  | _, [] => []
  | a, v :: rest => if v = unlisted then cellsOfList (a + 1) rest
                    else (a, v) :: cellsOfList (a + 1) rest

/-- The memory that holds a program (R116): `N = len(program)`, `MEM[a] = program[a]`. -/
def Memory.ofList (program : List Word) : Memory :=
  { size := program.length, cells := cellsOfList 0 program }

/-- The whole sequence `MEM[0..N-1]` (R122). -/
def Memory.toList (m : Memory) : List Word := (List.range m.size).map m.get

/-! ### One field each -/

/-- `MEM <- m`. -/
def State.setMem (s : State) (m : Memory) : State := { s with mem := m }

/-- `IP <- a` (R12). -/
def State.setIp (s : State) (a : Nat) : State := { s with ip := a }

/-- `INQ <- q` (R17). -/
def State.setInq (s : State) (q : List Word) : State := { s with inq := q }

/-- `OUTQ <- q` (R18). -/
def State.setOutq (s : State) (q : List Word) : State := { s with outq := q }

/-- `STATUS <- Halted` (R110). -/
def State.halt (s : State) : State := { s with status := .halted }

/-! ### Taking an exception -/

/-- `raise K` (R136), the fault entry: STATUS and FAULT are written and nothing else; no register is
saved, no mode changes and control goes nowhere. There is no return from it: Faulted is absorbing, and
neither an instruction nor a transaction leads back (R138). -/
def raise (k : FaultKind) (s : State) : State := { s with status := .faulted, fault := some k }

/-! ### Shared tails of the instructions -/

/-- The generic advance `IP <- IP + width` (R80). -/
def advance (width : Nat) (s : State) : State := s.setIp (s.ip + width)

/-- The destination write and then the advance (R78, R79 actions 7 and 8). The write raises
`AddressFault` on an invalid address (R34), which the resolver has excluded. -/
def writeBack (a : Nat) (v : Int) (width : Nat) (s : State) : State :=
  match s.mem.write (a : Int) v with
  | none => raise .addressFault s
  | some m => advance width (s.setMem m)

/-- A value at the back of `OUTQ`: `push_back(OUTQ, v)` (R7, R18). -/
def pushOut (v : Int) (s : State) : State := s.setOutq (s.outq ++ [v])

/-! ### Register codes and the placing of words -/

/-- The number of a STATUS value (R16). -/
def Status.code : Status → Nat
  | .running => 0
  | .halted => 1
  | .faulted => 2

/-- The number of a FAULT value (R16). -/
def faultCode : Option FaultKind → Nat
  | none => 0
  | some .decodeError => 1
  | some .addressFault => 2
  | some .inputStarved => 3
  | some .overflow => 4

/-- The cell width a bit string is laid out with: `W`, or 64 where `W = inf`. -/
def cellBits (c : Config) : Nat := c.width.getD 64

/-- Stands for a LOAD of an image that holds the bit string `w` as four cells from `IP` on (log 2):
memory is at least long enough for them, and the instance is Running with no fault recorded. -/
def placeWords (w : Nat) (s : State) : State :=
  let b := cellBits s.cfg
  let m : Memory := { s.mem with size := max s.mem.size (s.ip + 4) }
  { s with
    mem := (((m.put s.ip (bitsCell b w 0)).put (s.ip + 1) (bitsCell b w 1)).put (s.ip + 2)
      (bitsCell b w 2)).put (s.ip + 3) (bitsCell b w 3)
    status := .running
    fault := none }

end Sys2Proof.Machine
end

