-- ==== Sys2Proof/Machine/Flags.lean ====
section
/-! DEFINITION. There are no flags (R19). The only condition an instruction computes from a result is
whether the result is in the range of a cell (R92); it is here, with the two answers of `OVF`. -/

namespace Sys2Proof.Machine

/-- `MIN_W = -2^(W-1)` (R5). -/
def minW (n : Nat) : Int := -((2 ^ (n - 1) : Nat) : Int)

/-- `MAX_W = 2^(W-1) - 1` (R5). -/
def maxW (n : Nat) : Int := ((2 ^ (n - 1) : Nat) : Int) - 1

/-- `MIN_W <= v <= MAX_W` (R5); every integer when `W = inf`. -/
def inRange (c : Config) (v : Int) : Bool :=
  match c.width with
  | none => true
  | some n => decide (minW n ≤ v) && decide (v ≤ maxW n)

/-- `wrap_W(v)` (R7): the value in `[MIN_W, MAX_W]` congruent to `v` modulo `2^W`. -/
def wrapW (n : Nat) (v : Int) : Int := Int.bmod v (2 ^ n)

/-- The value ADD or MUL writes for an exact result, `none` where it raises `Overflow` (R92). -/
def narrow (c : Config) (r : Int) : Option Int :=
  if inRange c r then some r
  else match c.ovf, c.width with
    | .fault, _ => none
    | .wrap, some n => some (wrapW n r)
    | .wrap, none => some r

/-- The integer a comparison writes: exactly 1 or 0 (R107). -/
def truth (b : Bool) : Int := if b then 1 else 0

end Sys2Proof.Machine
end

