-- ==== Sys2Proof/Machine/Operands.lean ====
section
/-! DEFINITION. The parameter-mode resolver (R75) and the four instruction formats (R53): every operand
is resolved, in ascending order, before the operation does anything (R76). -/

namespace Sys2Proof.Machine

/-- `resolve(i, m)` (R75): the address of operand `i`, `none` where the rule raises `AddressFault`. -/
def resolve (s : State) (i : Nat) (m : Mode) : Option Nat :=
  match s.mem.read ((s.ip + i : Nat) : Int) with
  | none => none
  | some a =>
    match m with
    | .immediate => some (s.ip + i)
    | .position => if s.mem.valid a then some a.toNat else none

/-- The effective mode (R74): a destination is resolved as Position whatever its digit says. -/
def effMode : Role → Mode → Mode
  | .source, m => m
  | .destination, _ => .position

/-- Operand `i` of an operation, resolved with its effective mode (R70, R74). -/
def operand (s : State) (op : Op) (i : Nat) (m : Mode) : Option Nat :=
  resolve s i (effMode (op.role i) m)

/-- Format F1 (R53): one operand; its address goes to the operation. -/
def withF1 (op : Op) (m1 : Mode) (s : State) (k : Nat → State) : State :=
  match operand s op 1 m1 with
  | some a1 => k a1
  | none => raise .addressFault s

/-- Format F2 (R53): two operands. -/
def withF2 (op : Op) (m1 m2 : Mode) (s : State) (k : Nat → Nat → State) : State :=
  match operand s op 1 m1, operand s op 2 m2 with
  | some a1, some a2 => k a1 a2
  | _, _ => raise .addressFault s

/-- Format F3 (R53): three operands. -/
def withF3 (op : Op) (m1 m2 m3 : Mode) (s : State) (k : Nat → Nat → Nat → State) : State :=
  match operand s op 1 m1, operand s op 2 m2, operand s op 3 m3 with
  | some a1, some a2, some a3 => k a1 a2 a3
  | _, _, _ => raise .addressFault s

end Sys2Proof.Machine
end

