-- ==== Sys2Proof/Machine/Arithmetic.lean ====
section
/-! DEFINITION. ADD and MUL (R90 to R93). -/

namespace Sys2Proof.Machine

/-- The common tail of ADD and MUL: the range check, then the write and the advance (R90, R91). -/
def writeArith (op : Op) (r : Int) (a3 : Nat) (s : State) : State :=
  match narrow s.cfg r with
  | none => raise .overflow s
  | some v => writeBack a3 v op.width s

/-- ADD (R90): the exact sum of the two source values to the destination. -/
def execAdd (m1 m2 m3 : Mode) (s : State) : Host.Outcome State Fault Refusal :=
  .next (withF3 .add m1 m2 m3 s fun a1 a2 a3 =>
    writeArith .add (s.mem.get a1 + s.mem.get a2) a3 s)

/-- MUL (R91): the exact product of the two source values to the destination. -/
def execMul (m1 m2 m3 : Mode) (s : State) : Host.Outcome State Fault Refusal :=
  .next (withF3 .mul m1 m2 m3 s fun a1 a2 a3 =>
    writeArith .mul (s.mem.get a1 * s.mem.get a2) a3 s)

end Sys2Proof.Machine
end

