-- ==== Sys2Proof/Machine/Compare.lean ====
section
/-! DEFINITION. LT and EQ (R105 to R107): signed comparisons of the two integers, with no subtraction. -/

namespace Sys2Proof.Machine

/-- LT (R105): 1 if source 1 is less than source 2, else 0. -/
def execLt (m1 m2 m3 : Mode) (s : State) : Host.Outcome State Fault Refusal :=
  .next (withF3 .lt m1 m2 m3 s fun a1 a2 a3 =>
    writeBack a3 (truth (decide (s.mem.get a1 < s.mem.get a2))) Op.lt.width s)

/-- EQ (R106): 1 if source 1 equals source 2, else 0. -/
def execEq (m1 m2 m3 : Mode) (s : State) : Host.Outcome State Fault Refusal :=
  .next (withF3 .eq m1 m2 m3 s fun a1 a2 a3 =>
    writeBack a3 (truth (decide (s.mem.get a1 = s.mem.get a2))) Op.eq.width s)

end Sys2Proof.Machine
end

