-- ==== Sys2Proof/Machine/Halt.lean ====
section
/-! DEFINITION. HLT (R110). -/

namespace Sys2Proof.Machine

/-- HLT (R110): `STATUS <- Halted`, then `IP <- IP + 1`. -/
def execHlt (s : State) : Host.Outcome State Fault Refusal :=
  .next (advance Op.hlt.width s.halt)

end Sys2Proof.Machine
end

