-- ==== Sys2Proof/Machine/InputOutput.lean ====
section
/-! DEFINITION. IN and OUT (R95 to R98). -/

namespace Sys2Proof.Machine

/-- IN (R95): `InputStarved` on an empty `INQ`; otherwise its front element goes to the destination.
It never waits (R97). -/
def execInp (m1 : Mode) (s : State) : Host.Outcome State Fault Refusal :=
  .next (withF1 .inp m1 s fun a1 =>
    match s.inq with
    | [] => raise .inputStarved s
    | v :: rest => writeBack a1 v Op.inp.width (s.setInq rest))

/-- OUT (R96): the source value goes to the back of `OUTQ`. -/
def execOut (m1 : Mode) (s : State) : Host.Outcome State Fault Refusal :=
  .next (withF1 .out m1 s fun a1 => advance Op.out.width (pushOut (s.mem.get a1) s))

end Sys2Proof.Machine
end

