-- ==== Sys2Proof/Machine/Jumps.lean ====
section
/-! DEFINITION. JT and JF (R100 to R103). -/

namespace Sys2Proof.Machine

/-- The common tail of the jumps: a taken jump raises `AddressFault` on a negative target and else
writes `IP` without a check against `N`; an untaken one falls through (R100 to R102). -/
def jumpIf (taken : Bool) (target : Int) (width : Nat) (s : State) : State :=
  if taken then
    if target < 0 then raise .addressFault s else s.setIp target.toNat
  else advance width s

/-- JT (R100): jumps when the condition is not 0. -/
def execJt (m1 m2 : Mode) (s : State) : Host.Outcome State Fault Refusal :=
  .next (withF2 .jt m1 m2 s fun a1 a2 =>
    jumpIf (s.mem.get a1 != 0) (s.mem.get a2) Op.jt.width s)

/-- JF (R101): jumps when the condition is 0. -/
def execJf (m1 m2 : Mode) (s : State) : Host.Outcome State Fault Refusal :=
  .next (withF2 .jf m1 m2 s fun a1 a2 =>
    jumpIf (s.mem.get a1 == 0) (s.mem.get a2) Op.jf.width s)

end Sys2Proof.Machine
end

