-- ==== Sys2Proof/Machine/Fetch.lean ====
section
/-! DEFINITION. Fetch and decode (R71, R72), the first two actions of a step. -/

namespace Sys2Proof.Machine

/-- Fetch of `MEM[IP]` and its decoding: the instruction, or the fault the step raises. Nothing but
the instruction word is read, and nothing is kept between steps (R21, R41). -/
def fetchDecode (s : State) : Except FaultKind Instr :=
  match s.mem.read (s.ip : Int) with
  | none => .error .addressFault
  | some w =>
    match decode s.cfg w with
    | .error _ => .error .decodeError
    | .ok i => .ok i

end Sys2Proof.Machine
end

