-- ==== Sys2Proof/Machine/Step.lean ====
section
/-! DEFINITION. The step of the core (R70), and the host's placing of one instruction. -/

namespace Sys2Proof.Machine

/-- One step (R70): enabled only when STATUS is Running; fetch, decode, then the instruction's meaning,
which resolves its operands first. A state that is Halted or Faulted is returned unchanged, the first
of the two forms R81 allows (log 11). -/
def step (s : State) : Host.Outcome State Fault Refusal :=
  match s.status with
  | .running =>
    match fetchDecode s with
    | .error k => .next (raise k s)
    | .ok i => exec i s
  | .halted => .next s
  | .faulted => .next s

/-- `s` with the instruction whose bits are `w` where `step` fetches its next instruction: it stands
for a LOAD of an image that holds it (log 2), so that `step` fetches and runs exactly it. The bits
above `nbits` are 0 already. -/
def State.withFetchWord (s : State) (_nbits w : Nat) : State := placeWords w s

end Sys2Proof.Machine
end

