-- ==== Sys2Proof/Machine/Transactions.lean ====
section
/-! DEFINITION. The host transactions (R115 to R129): what the agent outside the core can do to an
instance, and a rack of independent instances (R23). They are no part of `step`: none happens inside
a RUN (R117), and the host has no single step (R123). -/

namespace Sys2Proof.Machine

/-- Why a transaction is refused; it then changes nothing (R117, R148). The names are the model's
(log 9). -/
inductive TxRefusal where
  /-- A value outside `[MIN_W, MAX_W]` at LOAD, SEED or PUSH_INPUT (R124, D14). -/
  | valueOutOfRange
  /-- LOAD of a program with `N + 3 > MAX_W` (R116, D27). -/
  | programTooLong
  /-- SEED of an instance that is no longer Running (R117, D12). -/
  | seedAfterRun
  /-- SEED with `N < 3` (R118, D13). -/
  | seedShortMemory
  /-- READ_MEM of an address outside `[0, N)` (R122, D13). -/
  | addressOutOfRange
  /-- A transaction on a handle that names no live instance (R125). -/
  | noInstance
deriving DecidableEq, Repr

/-- What RUN returns (R121). -/
inductive RunResult where
  | ok
  | err (k : FaultKind)
deriving DecidableEq, Repr

/-- `N + 3 <= MAX_W` (R5, R116). -/
def lengthOk (c : Config) (n : Nat) : Bool :=
  match c.width with
  | none => true
  | some w => decide (((n + 3 : Nat) : Int) ≤ maxW w)

/-- The state of R24 for a program. -/
def freshState (c : Config) (program : List Word) : State :=
  { cfg := c
    mem := Memory.ofList program
    ip := 0
    inq := []
    outq := []
    status := .running
    fault := none }

/-- LOAD(program) under a configuration (R116); the only reset (R150). R151 fixes the parameters before
LOAD; that each LOAD takes its own is the model's DESIGN CHOICE (log 15). -/
def load (c : Config) (program : List Word) : Except TxRefusal State :=
  if program.all (inRange c) then
    if lengthOk c program.length then .ok (freshState c program) else .error .programTooLong
  else .error .valueOutOfRange

/-- SEED(noun, verb) (R118): cells 1 and 2, before RUN only. Between transactions an instance that is
Running has taken no step, because RUN returns only when it is not (R82, R117;
log 10). -/
def seed (noun verb : Int) (s : State) : Except TxRefusal State :=
  if s.status ≠ .running then .error .seedAfterRun
  else if inRange s.cfg noun && inRange s.cfg verb then
    match s.mem.write 1 noun with
    | none => .error .seedShortMemory
    | some m =>
      match m.write 2 verb with
      | none => .error .seedShortMemory
      | some m' => .ok (s.setMem m')
  else .error .valueOutOfRange

/-- PUSH_INPUT(value) (R119): allowed before and after RUN (R117). -/
def pushInput (v : Int) (s : State) : Except TxRefusal State :=
  if inRange s.cfg v then .ok (s.setInq (s.inq ++ [v])) else .error .valueOutOfRange

/-- POP_OUTPUT() (R120): the front of `OUTQ`, or None. -/
def popOutput (s : State) : Option Int × State :=
  match s.outq with
  | [] => (none, s)
  | v :: rest => (some v, s.setOutq rest)

/-- READ_MEM(a) (R122). -/
def readMem (a : Int) (s : State) : Except TxRefusal Int :=
  match s.mem.read a with
  | some v => .ok v
  | none => .error .addressOutOfRange

/-- READ_MEM() (R122): the whole memory. -/
def readAll (s : State) : List Word := s.mem.toList

/-- The loop of R82 with at most `fuel` steps; `none` when the instance is still Running then. The
machine itself has no bound: RUN returns iff some `fuel` gives a state (R82, R121). -/
def runLoop : Nat → State → Option State
  | 0, s => if s.status = .running then none else some s
  | fuel + 1, s =>
    if s.status = .running then
      match step s with
      | .next t => runLoop fuel t
      | .fault _ => none
      | .refused _ => none
    else some s

/-- The outcome STATUS and FAULT record (R121); `none` while Running. -/
def outcome (s : State) : Option RunResult :=
  match s.status, s.fault with
  | .halted, _ => some .ok
  | .faulted, some k => some (.err k)
  | .faulted, none => none
  | .running, _ => none

/-- RUN() (R121), cut off after `fuel` steps: the instance at its end and what RUN returns. -/
def run (fuel : Nat) (s : State) : Option (State × RunResult) :=
  match runLoop fuel s with
  | none => none
  | some t => (outcome t).map fun r => (t, r)

/-- Pushes every value of a list in order (R126). -/
def pushAll : List Word → State → Except TxRefusal State
  | [], s => .ok s
  | v :: rest, s =>
    match pushInput v s with
    | .ok t => pushAll rest t
    | .error e => .error e

/-- POP_OUTPUT repeated `n` times (R120): the results in order, and the instance after them. -/
def popTimes : Nat → State → List (Option Int) × State
  | 0, s => ([], s)
  | n + 1, s =>
    let (v, t) := popOutput s
    let (vs, u) := popTimes n t
    (v :: vs, u)

/-- The host's relay of R126: everything left in one instance's `OUTQ` is popped and pushed to another
instance, in order. The receiver checks the values against its own width (R124), which may differ from the
sender's (log 15). -/
def relay (a b : State) : Except TxRefusal (State × State) :=
  match pushAll a.outq b with
  | .ok b' => .ok ((popTimes a.outq.length a).2, b')
  | .error e => .error e

/-! ### Several instances -/

/-- The instances the host has made, by handle; `none` for a dropped one (R23, R125). Each carries its own
configuration, and two of them may differ in it: DESIGN CHOICE, the spec does not say (log 15); safe. -/
abbrev Rack := List (Option State)

/-- A host transaction (R115). LOAD makes a new instance; the others act on the one a handle names.
DESIGN CHOICE (log 15): LOAD names the configuration of its instance, so that W, OVF, OPMAP and OPSET may
differ among the instances of one host; R116's LOAD takes a program only, and R22 and R151 leave open
whether one choice holds for all. Safe: a host that always names the same one is among those modelled. -/
inductive HostTx where
  | load (c : Config) (program : List Word)
  | seed (noun verb : Int)
  | pushInput (v : Int)
  | popOutput
  | run
  | readMem (a : Int)
  | readAll
  | drop
deriving DecidableEq, Repr

/-- What a transaction returns to the host (R115). -/
inductive TxResult where
  | created (handle : Nat)
  | done
  | popped (v : Option Int)
  | finished (r : RunResult)
  | value (v : Int)
  | values (vs : List Word)
deriving DecidableEq, Repr

/-- The outcome of a transaction; `noReturn` is a RUN that has not ended within the fuel (R121). -/
inductive TxOutcome where
  | done (rack : Rack) (r : TxResult)
  | refused (why : TxRefusal)
  | noReturn
deriving DecidableEq, Repr

/-- A transaction other than LOAD on one instance: the slot after it and the result. -/
def actOn (fuel : Nat) (tx : HostTx) (s : State) : Except (Option TxRefusal) (Option State × TxResult) :=
  match tx with
  | .load _ _ => .error (some .noInstance)
  | .seed noun verb =>
    match seed noun verb s with
    | .ok t => .ok (some t, .done)
    | .error e => .error (some e)
  | .pushInput v =>
    match pushInput v s with
    | .ok t => .ok (some t, .done)
    | .error e => .error (some e)
  | .popOutput => .ok (some (popOutput s).2, .popped (popOutput s).1)
  | .run =>
    match run fuel s with
    | some (t, r) => .ok (some t, .finished r)
    | none => .error none
  | .readMem a =>
    match readMem a s with
    | .ok v => .ok (some s, .value v)
    | .error e => .error (some e)
  | .readAll => .ok (some s, .values (readAll s))
  | .drop => .ok (none, .done)

/-- One host transaction on a rack: LOAD adds an instance under a new handle and touches no other
(R116); every other transaction acts on the instance of handle `h` alone (R23). -/
def hostAct (fuel : Nat) (h : Nat) (tx : HostTx) (rack : Rack) : TxOutcome :=
  match tx with
  | .load c program =>
    match load c program with
    | .ok s => .done (rack ++ [some s]) (.created rack.length)
    | .error e => .refused e
  | tx =>
    match rack[h]? with
    | some (some s) =>
      match actOn fuel tx s with
      | .ok (slot, r) => .done (rack.set h slot) r
      | .error (some e) => .refused e
      | .error none => .noReturn
    | _ => .refused .noInstance

end Sys2Proof.Machine
end

