-- ==== Sys2Proof/Safety.lean ====
section
/-! DEFINITION. The terms claims are stated in: values that fit a cell, the operand rule of R75, what a
storing instruction leaves, how a run ends (R128), and the invariants of R25. -/

namespace Sys2Proof.Safety

open Sys2Proof.Machine

/-- `MIN_W <= v <= MAX_W` (R5); every integer fits when `W = inf`. -/
def Fits (c : Config) (v : Int) : Prop :=
  ∀ n : Nat, c.width = some n → -(2 ^ (n - 1)) ≤ v ∧ v ≤ 2 ^ (n - 1) - 1

/-- Operand `i` with effective mode `m` is at address `a` (R75): its operand cell exists, and it is
that cell (Immediate), or the cell holds a valid address and it is that address (Position). -/
def OperandAt (s : State) (i : Nat) (m : Mode) (a : Nat) : Prop :=
  s.ip + i < s.mem.size ∧
    match m with
    | .immediate => a = s.ip + i
    | .position => s.mem.get (s.ip + i) = (a : Int) ∧ a < s.mem.size

/-- What a storing instruction that completes leaves of `s`: `v` in cell `a`, `IP` advanced by the
width, and every other cell and every other piece of state as before. -/
structure Stored (s t : State) (a : Nat) (v : Int) (width : Nat) : Prop where
  size : t.mem.size = s.mem.size
  cell : t.mem.get a = v
  others : ∀ b, b ≠ a → t.mem.get b = s.mem.get b
  ip : t.ip = s.ip + width
  cfg : t.cfg = s.cfg
  inq : t.inq = s.inq
  outq : t.outq = s.outq
  status : t.status = s.status
  fault : t.fault = s.fault

/-- A normal end of a run (R128): "iff `STATUS = Halted`". -/
def NormalEnd (s : State) : Prop := s.status = .halted

/-- A faulted end of a run (R128). -/
def FaultedEnd (s : State) : Prop := s.status = .faulted

/-- The instance a step starts from fetches the instruction `i` (R71, R72). -/
def Fetches (s : State) (i : Instr) : Prop :=
  s.ip < s.mem.size ∧ decode s.cfg (s.mem.get s.ip) = .ok i

/-- The invariants of R25 between steps, with the canonical form of memory (log 3). -/
structure CoreInv (s : State) : Prop where
  /-- The configuration is legal (R5). -/
  cfg : s.cfg.wf = true
  /-- The memory list is canonical (log 3). -/
  mem : s.mem.wf
  /-- (I-b) every cell is in range. -/
  cells : ∀ a, a < s.mem.size → Fits s.cfg (s.mem.get a)
  /-- (I-b) every element of the input queue is in range. -/
  inq : ∀ v ∈ s.inq, Fits s.cfg v
  /-- (I-b) every element of the output queue is in range. -/
  outq : ∀ v ∈ s.outq, Fits s.cfg v
  /-- (I-c), R12: IP is at most MAX_W. -/
  ip : Fits s.cfg (s.ip : Int)
  /-- R5, R116: `N + 3 <= MAX_W`. -/
  size : Fits s.cfg ((s.mem.size + 3 : Nat) : Int)
  /-- (I-f): FAULT is not None iff STATUS is Faulted. -/
  fault : s.fault ≠ none ↔ s.status = .faulted

end Sys2Proof.Safety
end

