-- ==== Sys2Proof/Certificates/Slice0/Obligations.lean ====
section
/-! DEFINITION. The statements for the provers: what the spec's rules say the machine and its host
transactions do. Where a statement rests on one of the spec's own decisions (D<n> of
92_eei_decisions.md) or on a choice of this model (log <n>), its docstring says so. -/

open Sys2Proof Sys2Proof.Machine Sys2Proof.Safety

/-! ### Reset and LOAD -/

/-- R24, R116, R151: the state after LOAD, for every program of values in range and legal length
(decisions D14, D27 say which programs are accepted). That LOAD takes the configuration is the model's
choice (log 15). -/
def Obligations.LoadGivesResetState : Prop :=
  ∀ (c : Config) (program : List Word),
    (∀ v ∈ program, Fits c v) → Fits c ((program.length + 3 : Nat) : Int) →
    ∃ s, load c program = .ok s ∧ s.cfg = c ∧ s.mem.size = program.length
      ∧ (∀ (a : Nat) (h : a < program.length), s.mem.get a = program[a])
      ∧ s.ip = 0 ∧ s.inq = [] ∧ s.outq = [] ∧ s.status = .running ∧ s.fault = none

/-- R116, R124 (decisions D14, D27): LOAD refuses a value out of range and a length above the limit. -/
def Obligations.LoadRefusesIllegalPrograms : Prop :=
  ∀ (c : Config) (program : List Word),
    ((∃ v ∈ program, ¬ Fits c v) ∨ ¬ Fits c ((program.length + 3 : Nat) : Int)) →
    ∀ s, load c program ≠ .ok s

/-- R24, R25: the model's reset state is LOAD of the empty program under the default configuration (the
model's choice of program, log 2), and there the invariants of R25 hold, with a legal configuration (log 5)
and the canonical form of memory, which is the model's own (log 3). -/
def Obligations.InvariantHoldsAtReset : Prop :=
  load Config.default [] = .ok State.reset ∧ CoreInv State.reset

/-! ### Encoding -/

/-- R51, R52, R57 to R60: fourteen words of the spec's decoding table (95_test_vectors.md 2.1), and 1006
from its program P2, under the default configuration (ids 3, 4, 5, 6, 8 are the spec's general knowledge,
log 6). That a refused word is a `DecodeError` is the spec's; which of the five names it has is the model's
choice (log 8). -/
def Obligations.SpecWordsDecode : Prop :=
  decode Config.default 1 = .ok (.add .position .position .position)
  ∧ decode Config.default 11101 = .ok (.add .immediate .immediate .immediate)
  ∧ decode Config.default 1002 = .ok (.mul .position .immediate .position)
  ∧ decode Config.default 103 = .ok (.inp .immediate)
  ∧ decode Config.default 104 = .ok (.out .immediate)
  ∧ decode Config.default 105 = .ok (.jt .immediate .position)
  ∧ decode Config.default 1006 = .ok (.jf .position .immediate)
  ∧ decode Config.default 1107 = .ok (.lt .immediate .immediate .position)
  ∧ decode Config.default 8 = .ok (.eq .position .position .position)
  ∧ decode Config.default 99 = .ok .hlt
  ∧ decode Config.default 0 = .error .unknownOpcode
  ∧ decode Config.default 20001 = .error .badModeDigit
  ∧ decode Config.default 199 = .error .unusedDigit
  ∧ decode Config.default 100001 = .error .highDigits
  ∧ decode Config.default (-99) = .error .negativeWord

/-- R51, R53, R57: decoding an encoded instruction gives it back, for every legal configuration and
every instruction of its `OPSET`, with every mode, a destination's ignored one included. -/
def Obligations.EncodeThenDecode : Prop :=
  ∀ (c : Config) (i : Instr), c.wf = true → i.wf c = true → decode c (encode c i) = .ok i

/-- R57, R59 (decisions D4, D5), R62: each word that decodes is the one encoding of its instruction,
which is in `OPSET`. -/
def Obligations.DecodeThenEncode : Prop :=
  ∀ (c : Config) (w : Int) (i : Instr), decode c w = .ok i → encode c i = w ∧ i.wf c = true

/-- R64: with the default `OPMAP` and `OPSET` the legal words are the 45 listed ones and no others
(an inference the spec marks as derived; it rests on decisions D1, D4, D5). -/
def Obligations.LegalWordsAreTheFortyFive : Prop :=
  ∀ (c : Config) (w : Int), c.opmap = Config.defaultOpmap → c.opset = Config.allOps →
    ((∃ i, decode c w = .ok i) ↔
      (∃ k ∈ [(1 : Int), 2, 7, 8], w ∈ [k, 100 + k, 1000 + k, 1100 + k, 10000 + k, 10100 + k,
        11000 + k, 11100 + k])
      ∨ (∃ k ∈ [(5 : Int), 6], w ∈ [k, 100 + k, 1000 + k, 1100 + k])
      ∨ (∃ k ∈ [(3 : Int), 4], w ∈ [k, 100 + k])
      ∨ w = 99)

/-- R60: a word whose `OP` is the id of no operation in `OPSET` faults with DecodeError when a step
fetches it; with the defaults the illegal ids are 0 and 9 to 98. -/
def Obligations.UnknownOpcodeFaults : Prop :=
  (∀ s : State, s.status = .running → s.ip < s.mem.size →
    (∀ op, s.cfg.opset.get op = true → (s.cfg.opmap.get op : Int) ≠ s.mem.get s.ip % 100) →
    step s = .next { s with status := .faulted, fault := some .decodeError })
  ∧ ∀ id : Nat, id < 100 →
    ((∀ op, Config.default.opset.get op = true → Config.default.opmap.get op ≠ id)
      ↔ id = 0 ∨ (9 ≤ id ∧ id ≤ 98))

/-- R58: a mode digit 2 to 9 in the position of an operand the operation has, destination included, is
a DecodeError, under a legal configuration (log 5). That nothing but STATUS and FAULT changes is R136
(decision D9). -/
def Obligations.IllegalModeDigitFaults : Prop :=
  ∀ (s : State) (op : Op) (k : Nat), s.cfg.wf = true → s.cfg.opset.get op = true →
    s.status = .running → s.ip < s.mem.size → 0 ≤ s.mem.get s.ip →
    s.mem.get s.ip % 100 = (s.cfg.opmap.get op : Int) → 1 ≤ k → k ≤ op.operands →
    2 ≤ s.mem.get s.ip / 10 ^ (k + 1) % 10 →
    step s = .next { s with status := .faulted, fault := some .decodeError }

/-- R59 (decisions D4, D5): a negative word, a non-zero digit of weight 10^5 or more, and a non-zero
mode digit beyond the operand count are each a DecodeError. -/
def Obligations.UnusedDigitsFault : Prop :=
  ∀ s : State, s.status = .running → s.ip < s.mem.size →
    (s.mem.get s.ip < 0 ∨ 100000 ≤ s.mem.get s.ip
      ∨ ∃ (op : Op) (k : Nat), s.cfg.wf = true ∧ s.cfg.opset.get op = true
          ∧ s.mem.get s.ip % 100 = (s.cfg.opmap.get op : Int) ∧ op.operands < k ∧ k ≤ 3
          ∧ s.mem.get s.ip / 10 ^ (k + 1) % 10 ≠ 0) →
    step s = .next { s with status := .faulted, fault := some .decodeError }

/-- R61: the destinations are operand 3 of ADD, MUL, LT, EQ and operand 1 of IN, and are resolved as
Position; the mode digit of a destination selects nothing, but must be 0 or 1: instructions of one
operation with the same source modes behave alike, and (R58) a word whose destination digit is 2 to 9 does
not decode. The last clause is for a legal configuration, whose two-digit and distinct ids are read from the
spec by inference (log 5). -/
def Obligations.DestinationDigitSelectsNothing : Prop :=
  (∀ (op : Op) (k : Nat), op.role k = .destination ↔
    (k = 3 ∧ (op = .add ∨ op = .mul ∨ op = .lt ∨ op = .eq)) ∨ (k = 1 ∧ op = .inp))
  ∧ (∀ (s : State) (op : Op) (k : Nat) (m : Mode), op.role k = .destination →
    operand s op k m = resolve s k .position)
  ∧ (∀ (i j : Instr) (s : State), i.op = j.op →
    (∀ k, i.op.role (k + 1) = .source → i.modes[k]? = j.modes[k]?) → exec i s = exec j s)
  ∧ ∀ (c : Config) (w : Int) (op : Op) (k : Nat), c.wf = true → c.opset.get op = true → 0 ≤ w →
    w % 100 = (c.opmap.get op : Int) → op.role k = .destination → 2 ≤ w / 10 ^ (k + 1) % 10 →
    ∀ i, decode c w ≠ .ok i

/-! ### Memory and the resolver -/

/-- R33, with R32 and R34: a read gives the cell of a valid address and faults on any other, a write
faults likewise, and a read after a write gives the value written at its address and the old value at
every other. -/
def Obligations.MemoryReadAfterWrite : Prop :=
  ∀ (m : Memory) (a : Int) (v : Int),
    (∀ k : Nat, k < m.size → m.read (k : Int) = some (m.get k))
    ∧ (m.read a = none ↔ ¬ (0 ≤ a ∧ a < (m.size : Int)))
    ∧ (m.write a v = none ↔ ¬ (0 ≤ a ∧ a < (m.size : Int)))
    ∧ ∀ m', m.write a v = some m' →
        m'.size = m.size ∧ ∀ b, m'.read b = if b = a then some v else m.read b

/-- R75 (decision D6 for the Immediate operand cell): the resolver's answer. -/
def Obligations.ResolverRule : Prop :=
  ∀ (s : State) (i : Nat) (m : Mode) (a : Nat), resolve s i m = some a ↔ OperandAt s i m a

/-- R74, R76, R79 (decisions D6, D7): an instruction with an operand that cannot be resolved raises
AddressFault and changes nothing else, whatever its other operands, its queue or its result would do. -/
def Obligations.UnresolvableOperandFaults : Prop :=
  ∀ (i : Instr) (s : State) (k : Nat) (m : Mode), i.modes[k]? = some m →
    (∀ a, ¬ OperandAt s (k + 1) (if i.op.role (k + 1) = .destination then .position else m) a) →
    exec i s = .next { s with status := .faulted, fault := some .addressFault }

/-! ### The step -/

/-- R70, R71, R72: a Running instance whose word at IP decodes runs exactly that instruction; the step
adds nothing around it. -/
def Obligations.StepRunsDecodedInstruction : Prop :=
  ∀ (s : State) (i : Instr), s.status = .running → Fetches s i → step s = exec i s

/-- R51, R53, R70: a Running instance whose word at IP is the encoding of an instruction of `OPSET`
runs that instruction. -/
def Obligations.EncodedWordIsExecuted : Prop :=
  ∀ (s : State) (i : Instr), s.status = .running → s.cfg.wf = true → i.wf s.cfg = true →
    s.ip < s.mem.size → s.mem.get s.ip = encode s.cfg i → step s = exec i s

/-- R71: a fetch at or above `N` raises AddressFault and leaves IP (decision D9) where it is. -/
def Obligations.FetchPastEndFaults : Prop :=
  ∀ s : State, s.status = .running → s.mem.size ≤ s.ip →
    step s = .next { s with status := .faulted, fault := some .addressFault }

/-- R72, R79 (decision D7): a word that does not decode raises DecodeError before any operand cell is
looked at. -/
def Obligations.UndecodableWordFaults : Prop :=
  ∀ s : State, s.status = .running → s.ip < s.mem.size →
    (∀ i, decode s.cfg (s.mem.get s.ip) ≠ .ok i) →
    step s = .next { s with status := .faulted, fault := some .decodeError }

/-- R81: an instance that is Halted or Faulted takes no step, and its state no longer changes, however
often it is stepped. That `step` answers such a state unchanged is the model's choice between the two forms
R81 allows (log 11). -/
def Obligations.FinishedInstanceTakesNoStep : Prop :=
  ∀ s : State, s.status ≠ .running →
    step s = .next s ∧ ∀ k, Host.Core.run Sys2Proof.core k s = .next s

/-- R81, in the form that either of the two steps R81 allows would meet (log 11 plays no part): whatever
state any number of steps from a Halted or Faulted instance answers, it is the same state, so the
instruction at IP is not executed. -/
def Obligations.FinishedStateNeverChanges : Prop :=
  ∀ (k : Nat) (s t : State), s.status ≠ .running → Host.Core.run Sys2Proof.core k s = .next t → t = s

/-- R136 (decisions D9, D22): a step that ends Faulted has written STATUS and FAULT and nothing else,
and no further step changes anything. That the further step answers the state unchanged is the model's
choice (log 11). -/
def Obligations.FaultsArePrecise : Prop :=
  ∀ s t : State, s.status = .running → step s = .next t → t.status = .faulted →
    ∃ k, t = { s with status := .faulted, fault := some k } ∧ step t = .next t

/-- R130 to R134 (Overflow by decision D3): what each fault kind comes from, in a step that faults: the
complete list of causes, with the fetched instruction's own modes. -/
def Obligations.FaultCauses : Prop :=
  ∀ s t : State, s.status = .running → step s = .next t → t.status = .faulted →
    (t.fault = some .decodeError ↔ s.ip < s.mem.size ∧ ∀ i, decode s.cfg (s.mem.get s.ip) ≠ .ok i)
    ∧ (t.fault = some .inputStarved ↔ s.inq = [] ∧ ∃ m a, Fetches s (.inp m) ∧ OperandAt s 1 .position a)
    ∧ (t.fault = some .overflow ↔ s.cfg.ovf = .fault ∧ s.cfg.width ≠ none
        ∧ ∃ m1 m2 m3 a1 a2 a3, OperandAt s 1 m1 a1 ∧ OperandAt s 2 m2 a2 ∧ OperandAt s 3 .position a3
          ∧ ((Fetches s (.add m1 m2 m3) ∧ ¬ Fits s.cfg (s.mem.get a1 + s.mem.get a2))
            ∨ (Fetches s (.mul m1 m2 m3) ∧ ¬ Fits s.cfg (s.mem.get a1 * s.mem.get a2))))
    ∧ (t.fault = some .addressFault ↔ s.mem.size ≤ s.ip
        ∨ (∃ i k m, Fetches s i ∧ i.modes[k]? = some m ∧ ∀ a,
            ¬ OperandAt s (k + 1) (if i.op.role (k + 1) = .destination then .position else m) a)
        ∨ ∃ m1 m2 a1 a2, OperandAt s 1 m1 a1 ∧ OperandAt s 2 m2 a2 ∧ s.mem.get a2 < 0
          ∧ ((Fetches s (.jt m1 m2) ∧ s.mem.get a1 ≠ 0) ∨ (Fetches s (.jf m1 m2) ∧ s.mem.get a1 = 0)))

/-- R80: how IP moves in a step that does not fault; the new IP stays within MAX_W (R12, R5, decisions
D27, D29), and one at or above `N` makes the next fetch raise AddressFault (R71, R136, decision D9). -/
def Obligations.AdvanceOfIp : Prop :=
  ∀ (s t : State) (i : Instr), s.status = .running → Fetches s i → step s = .next t →
    t.status ≠ .faulted →
    (i.op = .add ∨ i.op = .mul ∨ i.op = .lt ∨ i.op = .eq → t.ip = s.ip + 4)
    ∧ (i.op = .inp ∨ i.op = .out → t.ip = s.ip + 2)
    ∧ (i.op = .hlt → t.ip = s.ip + 1)
    ∧ (∀ m1 m2, i = .jt m1 m2 → ∃ a1 a2, OperandAt s 1 m1 a1 ∧ OperandAt s 2 m2 a2
        ∧ ((s.mem.get a1 ≠ 0 ∧ (t.ip : Int) = s.mem.get a2) ∨ (s.mem.get a1 = 0 ∧ t.ip = s.ip + 3)))
    ∧ (∀ m1 m2, i = .jf m1 m2 → ∃ a1 a2, OperandAt s 1 m1 a1 ∧ OperandAt s 2 m2 a2
        ∧ ((s.mem.get a1 = 0 ∧ (t.ip : Int) = s.mem.get a2) ∨ (s.mem.get a1 ≠ 0 ∧ t.ip = s.ip + 3)))
    ∧ (CoreInv s → Fits s.cfg (t.ip : Int))
    ∧ (t.status = .running → t.mem.size ≤ t.ip →
        step t = .next { t with status := .faulted, fault := some .addressFault })

/-- R14: Running goes to Halted exactly by fetching and executing HLT, and no status is ever left for
Running. That a finished state has a step at all is the model's choice (log 11). -/
def Obligations.StatusTransitions : Prop :=
  ∀ s t : State, step s = .next t →
    (s.status ≠ .running → t.status = s.status)
    ∧ (s.status = .running → (t.status = .halted ↔ Fetches s .hlt))

/-- R148, R11, R22: no step is stuck or refused, and none changes the length of memory or the
configuration. R148 speaks of Running instances: that a finished one is answered too is the model's choice
(log 11), and that a fault is a next state is read from R136 (log 12). -/
def Obligations.EveryStepAnswersANextState : Prop :=
  ∀ s : State, ∃ t, step s = .next t ∧ t.mem.size = s.mem.size ∧ t.cfg = s.cfg

/-! ### The instructions: where each completes, and what it leaves -/

/-- R90: ADD whose operands resolve and whose exact sum is in range writes the sum and advances by 4. -/
def Obligations.AddWritesSum : Prop :=
  ∀ (m1 m2 m3 : Mode) (s : State) (a1 a2 a3 : Nat),
    OperandAt s 1 m1 a1 → OperandAt s 2 m2 a2 → OperandAt s 3 .position a3 →
    Fits s.cfg (s.mem.get a1 + s.mem.get a2) →
    ∃ t, exec (.add m1 m2 m3) s = .next t ∧ Stored s t a3 (s.mem.get a1 + s.mem.get a2) 4

/-- R91: MUL whose operands resolve and whose exact product is in range writes the product and advances
by 4. -/
def Obligations.MulWritesProduct : Prop :=
  ∀ (m1 m2 m3 : Mode) (s : State) (a1 a2 a3 : Nat),
    OperandAt s 1 m1 a1 → OperandAt s 2 m2 a2 → OperandAt s 3 .position a3 →
    Fits s.cfg (s.mem.get a1 * s.mem.get a2) →
    ∃ t, exec (.mul m1 m2 m3) s = .next t ∧ Stored s t a3 (s.mem.get a1 * s.mem.get a2) 4

/-- R92 with `OVF = fault` (decision D3): a sum or product out of range raises Overflow and writes
nothing. -/
def Obligations.OverflowFaults : Prop :=
  ∀ (m1 m2 m3 : Mode) (s : State) (a1 a2 a3 : Nat),
    OperandAt s 1 m1 a1 → OperandAt s 2 m2 a2 → OperandAt s 3 .position a3 → s.cfg.ovf = .fault →
    (¬ Fits s.cfg (s.mem.get a1 + s.mem.get a2) →
      exec (.add m1 m2 m3) s = .next { s with status := .faulted, fault := some .overflow })
    ∧ (¬ Fits s.cfg (s.mem.get a1 * s.mem.get a2) →
      exec (.mul m1 m2 m3) s = .next { s with status := .faulted, fault := some .overflow })

/-- R92 with `OVF = wrap` (decision D3), R7: a sum or product out of range is written as the value in
range that is congruent to it modulo `2^W`. -/
def Obligations.OverflowWraps : Prop :=
  ∀ (m1 m2 m3 : Mode) (s : State) (a1 a2 a3 n : Nat),
    OperandAt s 1 m1 a1 → OperandAt s 2 m2 a2 → OperandAt s 3 .position a3 →
    s.cfg.ovf = .wrap → s.cfg.wf = true → s.cfg.width = some n →
    (∃ t v, exec (.add m1 m2 m3) s = .next t ∧ Stored s t a3 v 4 ∧ Fits s.cfg v
      ∧ (2 : Int) ^ n ∣ s.mem.get a1 + s.mem.get a2 - v)
    ∧ (∃ t v, exec (.mul m1 m2 m3) s = .next t ∧ Stored s t a3 v 4 ∧ Fits s.cfg v
      ∧ (2 : Int) ^ n ∣ s.mem.get a1 * s.mem.get a2 - v)

/-- R95: IN with a resolved destination and a non-empty queue moves the front element to the
destination and advances by 2; its mode digit plays no part. -/
def Obligations.InputTakesFront : Prop :=
  ∀ (m1 : Mode) (s : State) (a1 : Nat) (v : Int) (rest : List Word),
    OperandAt s 1 .position a1 → s.inq = v :: rest →
    ∃ t, exec (.inp m1) s = .next t ∧ Stored { s with inq := rest } t a1 v 2

/-- R95, R133, R97: IN with a resolved destination and an empty queue raises InputStarved, writes
nothing and does not wait. -/
def Obligations.InputStarves : Prop :=
  ∀ (m1 : Mode) (s : State) (a1 : Nat), OperandAt s 1 .position a1 → s.inq = [] →
    exec (.inp m1) s = .next { s with status := .faulted, fault := some .inputStarved }

/-- R96: OUT whose operand resolves puts the value at the back of OUTQ, advances by 2 and changes
nothing else. -/
def Obligations.OutputAppends : Prop :=
  ∀ (m1 : Mode) (s : State) (a1 : Nat), OperandAt s 1 m1 a1 →
    exec (.out m1) s = .next { s with outq := s.outq ++ [s.mem.get a1], ip := s.ip + 2 }

/-- R100, R102 (a) (decision D8): JT whose operands resolve goes to the target when the condition is
not 0 and the target not negative, whatever `N` is, and falls through to IP + 3 when the condition is 0,
whatever the target value is. -/
def Obligations.JumpIfTrueRule : Prop :=
  ∀ (m1 m2 : Mode) (s : State) (a1 a2 : Nat), OperandAt s 1 m1 a1 → OperandAt s 2 m2 a2 →
    (s.mem.get a1 ≠ 0 → ∀ d : Nat, s.mem.get a2 = (d : Int) →
      exec (.jt m1 m2) s = .next { s with ip := d })
    ∧ (s.mem.get a1 = 0 → exec (.jt m1 m2) s = .next { s with ip := s.ip + 3 })

/-- R101, R102 (a) (decision D8): JF, as JT with the condition inverted. -/
def Obligations.JumpIfFalseRule : Prop :=
  ∀ (m1 m2 : Mode) (s : State) (a1 a2 : Nat), OperandAt s 1 m1 a1 → OperandAt s 2 m2 a2 →
    (s.mem.get a1 = 0 → ∀ d : Nat, s.mem.get a2 = (d : Int) →
      exec (.jf m1 m2) s = .next { s with ip := d })
    ∧ (s.mem.get a1 ≠ 0 → exec (.jf m1 m2) s = .next { s with ip := s.ip + 3 })

/-- R102 (b) (decision D8): a taken jump to a negative target raises AddressFault in its own step. -/
def Obligations.NegativeTargetFaults : Prop :=
  ∀ (m1 m2 : Mode) (s : State) (a1 a2 : Nat), OperandAt s 1 m1 a1 → OperandAt s 2 m2 a2 →
    s.mem.get a2 < 0 →
    (s.mem.get a1 ≠ 0 →
      exec (.jt m1 m2) s = .next { s with status := .faulted, fault := some .addressFault })
    ∧ (s.mem.get a1 = 0 →
      exec (.jf m1 m2) s = .next { s with status := .faulted, fault := some .addressFault })

/-- R105, R107: LT whose operands resolve writes exactly 1 or 0 by the signed comparison and advances
by 4. -/
def Obligations.LessThanWritesTruth : Prop :=
  ∀ (m1 m2 m3 : Mode) (s : State) (a1 a2 a3 : Nat),
    OperandAt s 1 m1 a1 → OperandAt s 2 m2 a2 → OperandAt s 3 .position a3 →
    ∃ t, exec (.lt m1 m2 m3) s = .next t
      ∧ Stored s t a3 (if s.mem.get a1 < s.mem.get a2 then 1 else 0) 4

/-- R106, R107: EQ whose operands resolve writes exactly 1 or 0 by equality and advances by 4. -/
def Obligations.EqualsWritesTruth : Prop :=
  ∀ (m1 m2 m3 : Mode) (s : State) (a1 a2 a3 : Nat),
    OperandAt s 1 m1 a1 → OperandAt s 2 m2 a2 → OperandAt s 3 .position a3 →
    ∃ t, exec (.eq m1 m2 m3) s = .next t
      ∧ Stored s t a3 (if s.mem.get a1 = s.mem.get a2 then 1 else 0) 4

/-- R110, R81: HLT sets STATUS to Halted and IP to IP + 1, changes nothing else, and the machine takes
no step after it. That `step` answers the halted state unchanged is the model's choice between the two forms
R81 allows (log 11). -/
def Obligations.HaltEndsTheRun : Prop :=
  ∀ s : State, exec .hlt s = .next { s with status := .halted, ip := s.ip + 1 }
    ∧ step { s with status := .halted, ip := s.ip + 1 }
        = .next { s with status := .halted, ip := s.ip + 1 }

/-! ### Frames -/

/-- R26, R34, R46, R78: what ADD, MUL, LT, EQ and IN leave unchanged. The address stored to is the
destination operand's, computed as the meaning computes it; every other cell reads as before, and every
cell where there is no such address. -/
def Obligations.StoringInstructionsFrame : Prop :=
  ∀ (m1 m2 m3 : Mode) (s t : State) (i : Instr) (d : Nat) (m : Mode),
    ((d = 3 ∧ m = m3 ∧ (i = .add m1 m2 m3 ∨ i = .mul m1 m2 m3 ∨ i = .lt m1 m2 m3 ∨ i = .eq m1 m2 m3))
      ∨ (d = 1 ∧ m = m1 ∧ i = .inp m1)) →
    exec i s = .next t →
    (∀ a, operand s i.op d m = some a → ∀ b, b ≠ a → t.mem.get b = s.mem.get b)
    ∧ (operand s i.op d m = none → ∀ b, t.mem.get b = s.mem.get b)
    ∧ t.mem.size = s.mem.size ∧ t.cfg = s.cfg ∧ t.outq = s.outq
    ∧ (i ≠ .inp m1 → t.inq = s.inq)
    ∧ ((t.status = s.status ∧ t.fault = s.fault)
      ∨ (t.status = .faulted ∧ t.fault ≠ none ∧ t.ip = s.ip ∧ t.mem = s.mem ∧ t.inq = s.inq))

/-- R78: a writing operation that completes writes exactly one cell, the one whose address is in its
destination's operand cell, checked to be valid; the write of a resolved destination never faults, whatever
the value; any valid cell can be the destination, one of the instruction itself or of another included; and
there is no other write path: a step that changes memory has fetched an operation with a destination. -/
def Obligations.DestinationWriteIsTheOnlyWrite : Prop :=
  (∀ (i : Instr) (s t : State) (k : Nat) (m : Mode), i.modes[k]? = some m →
    i.op.role (k + 1) = .destination → exec i s = .next t → t.status ≠ .faulted →
    ∃ a : Nat, s.mem.get (s.ip + (k + 1)) = (a : Int) ∧ a < s.mem.size ∧ t.mem.size = s.mem.size
      ∧ t.mem = s.mem.put a (t.mem.get a) ∧ ∀ b, b ≠ a → t.mem.get b = s.mem.get b)
  ∧ (∀ (op : Op) (s : State) (k a : Nat) (m : Mode) (v : Int), op.role k = .destination →
    operand s op k m = some a → s.mem.write (a : Int) v = some (s.mem.put a v))
  ∧ (∀ (op : Op) (s : State) (k a : Nat) (m : Mode), op.role k = .destination →
    s.ip + k < s.mem.size → s.mem.get (s.ip + k) = (a : Int) → a < s.mem.size → operand s op k m = some a)
  ∧ ∀ s t : State, step s = .next t → t.mem ≠ s.mem →
    ∃ i k m, Fetches s i ∧ i.modes[k]? = some m ∧ i.op.role (k + 1) = .destination

/-- R26, R46: what OUT, JT, JF and HLT leave unchanged: all of memory and the input queue, and the
output queue but for OUT, STATUS but for HLT. -/
def Obligations.NonStoringInstructionsFrame : Prop :=
  ∀ (m1 m2 : Mode) (s t : State) (i : Instr),
    (i = .out m1 ∨ i = .jt m1 m2 ∨ i = .jf m1 m2 ∨ i = .hlt) → exec i s = .next t →
    t.mem = s.mem ∧ (∀ b, t.mem.get b = s.mem.get b) ∧ t.cfg = s.cfg ∧ t.inq = s.inq
    ∧ (i ≠ .out m1 → t.outq = s.outq)
    ∧ ((i ≠ .hlt ∧ t.status = s.status ∧ t.fault = s.fault)
      ∨ (i = .hlt ∧ t.status = .halted ∧ t.fault = s.fault)
      ∨ (i ≠ .hlt ∧ t.status = .faulted ∧ t.fault ≠ none ∧ t.ip = s.ip ∧ t.outq = s.outq))

/-! ### Whole-machine rules -/

/-- R25, R12, R5, R15: every step keeps the invariants: a legal configuration (log 5), canonical memory
(the model's form, log 3), cells, queues and IP in range, `N + 3 <= MAX_W`, and FAULT recorded exactly when
Faulted. -/
def Obligations.StepKeepsInvariant : Prop :=
  ∀ s t : State, CoreInv s → step s = .next t → CoreInv t

/-- R25 (I-g), R17, R18: in any number of steps INQ loses values at the front only, and OUTQ gains
values at the back only. -/
def Obligations.QueuesAreFifo : Prop :=
  ∀ (k : Nat) (s t : State), Host.Core.run Sys2Proof.core k s = .next t →
    ∃ taken pushed : List Word, s.inq = taken ++ t.inq ∧ t.outq = s.outq ++ pushed

/-- R18: "No instruction can read `OUTQ`": whatever already stands in it, the step does the same. -/
def Obligations.OutputsCannotBeRead : Prop :=
  ∀ (s t : State) (earlier : List Word), step s = .next t →
    step { s with outq := earlier ++ s.outq } = .next { t with outq := earlier ++ t.outq }

/-- R17, R95, R97: values queued behind the ones present change nothing of a step that does not
starve. -/
def Obligations.LaterInputsChangeNothing : Prop :=
  ∀ (s t : State) (later : List Word), step s = .next t → t.fault ≠ some .inputStarved →
    step { s with inq := s.inq ++ later } = .next { t with inq := t.inq ++ later }

/-- R41: a store over the word that follows the storing instruction is seen by the very next fetch. For
every writer, ADD, MUL, LT, EQ and IN, with every `OVF`: if it completes and the cell after it then holds a
word that decodes, that instruction runs next. And where each writer completes: the value it stores there is
the word that runs. -/
def Obligations.StoreSeenByNextFetch : Prop :=
  (∀ (i j : Instr) (k : Nat) (m : Mode) (s t : State), s.status = .running →
    i.modes[k]? = some m → i.op.role (k + 1) = .destination →
    OperandAt s (k + 1) .position (s.ip + i.op.width) →
    exec i s = .next t → t.status ≠ .faulted →
    decode s.cfg (t.mem.get (s.ip + i.op.width)) = .ok j → Fetches t j ∧ step t = exec j t)
  ∧ (∀ (m1 m2 m3 : Mode) (s : State) (a1 a2 : Nat) (j : Instr), s.status = .running →
    OperandAt s 1 m1 a1 → OperandAt s 2 m2 a2 → OperandAt s 3 .position (s.ip + 4) →
    ∀ i v, ((i = .add m1 m2 m3 ∧ v = s.mem.get a1 + s.mem.get a2 ∧ Fits s.cfg v)
        ∨ (i = .mul m1 m2 m3 ∧ v = s.mem.get a1 * s.mem.get a2 ∧ Fits s.cfg v)
        ∨ (i = .lt m1 m2 m3 ∧ v = if s.mem.get a1 < s.mem.get a2 then 1 else 0)
        ∨ (i = .eq m1 m2 m3 ∧ v = if s.mem.get a1 = s.mem.get a2 then 1 else 0)) →
      decode s.cfg v = .ok j →
      ∃ t, exec i s = .next t ∧ t.mem.get t.ip = v ∧ step t = exec j t)
  ∧ ∀ (m1 : Mode) (s : State) (v : Int) (rest : List Word) (j : Instr), s.status = .running →
    OperandAt s 1 .position (s.ip + 2) → s.inq = v :: rest → decode s.cfg v = .ok j →
    ∃ t, exec (.inp m1) s = .next t ∧ t.mem.get t.ip = v ∧ step t = exec j t

/-! ### Host transactions -/

/-- R118 (decision D13), R117 (decision D12): SEED before RUN on at least three cells writes cells 1
and 2 and nothing else. -/
def Obligations.SeedWritesCellsOneAndTwo : Prop :=
  ∀ (noun verb : Int) (s : State), s.status = .running → 3 ≤ s.mem.size →
    Fits s.cfg noun → Fits s.cfg verb →
    ∃ m, seed noun verb s = .ok { s with mem := m } ∧ m.size = s.mem.size
      ∧ m.get 1 = noun ∧ m.get 2 = verb ∧ ∀ a, a ≠ 1 → a ≠ 2 → m.get a = s.mem.get a

/-- R117, R118, R124 (decisions D12, D13, D14): SEED is refused after RUN, on fewer than three cells,
and for a value out of range. -/
def Obligations.SeedRefusals : Prop :=
  ∀ (noun verb : Int) (s : State),
    (s.status ≠ .running ∨ s.mem.size < 3 ∨ ¬ Fits s.cfg noun ∨ ¬ Fits s.cfg verb) →
    ∀ t, seed noun verb s ≠ .ok t

/-- R119, R124: PUSH_INPUT puts a value in range at the back of INQ, whatever STATUS is, and refuses
any other value. -/
def Obligations.PushInputAppends : Prop :=
  ∀ (v : Int) (s : State),
    (Fits s.cfg v → pushInput v s = .ok { s with inq := s.inq ++ [v] })
    ∧ (¬ Fits s.cfg v → ∀ t, pushInput v s ≠ .ok t)

/-- R120: repeated POP_OUTPUT returns the outputs in the order they were pushed, then None, and leaves
OUTQ empty and everything else as it was. -/
def Obligations.OutputsDrainInOrder : Prop :=
  ∀ (s : State) (n : Nat),
    popTimes (s.outq.length + n) s
      = (s.outq.map some ++ List.replicate n none, { s with outq := [] })

/-- R122 (decision D13): READ_MEM gives the cell at a valid address and refuses any other; without an
address it gives the whole memory. -/
def Obligations.ReadMemRule : Prop :=
  ∀ (s : State),
    (∀ a : Nat, a < s.mem.size → readMem (a : Int) s = .ok (s.mem.get a) ∧ (readAll s)[a]? = some (s.mem.get a))
    ∧ (∀ a : Int, a < 0 ∨ (s.mem.size : Int) ≤ a → ∀ v, readMem a s ≠ .ok v)
    ∧ (readAll s).length = s.mem.size

/-- R82, R121, for a RUN cut off after a number of steps (the model's choice, log 9): RUN returns exactly the state in which stepping first leaves Running, `Ok` when it is
Halted and `Err(FAULT)` when it is Faulted. -/
def Obligations.RunReturnsTheOutcome : Prop :=
  (∀ (fuel : Nat) (s t : State) (r : RunResult), run fuel s = some (t, r) →
    (∃ n, n ≤ fuel ∧ Host.Core.run Sys2Proof.core n s = .next t
      ∧ ∀ j u, j < n → Host.Core.run Sys2Proof.core j s = .next u → u.status = .running)
    ∧ ((r = .ok ∧ t.status = .halted) ∨ ∃ k, r = .err k ∧ t.status = .faulted ∧ t.fault = some k))
  ∧ ∀ (n : Nat) (s t : State), Host.Core.run Sys2Proof.core n s = .next t →
    (t.status = .halted ∨ (t.status = .faulted ∧ t.fault ≠ none)) → ∃ r, run n s = some (t, r)

/-- R121, R138 (C5): RUN on a finished instance takes no step and returns the recorded outcome, also
after further inputs have been pushed to a starved one. The number of steps after which RUN is cut off is
the model's (log 9) and plays no part here. -/
def Obligations.RunOnFinishedInstance : Prop :=
  ∀ (fuel : Nat) (s : State),
    (s.status = .halted → run fuel s = some (s, .ok))
    ∧ (∀ k, s.status = .faulted → s.fault = some k → run fuel s = some (s, .err k))
    ∧ (∀ v t, s.status = .faulted → s.fault = some .inputStarved → pushInput v s = .ok t →
        run fuel t = some (t, .err .inputStarved))

/-- R24, R116, R124, R25: LOAD under a legal configuration (log 5) establishes the invariants, and every
other transaction keeps them (decisions D13, D14, D27 for the refusals this rests on). Beside R25's
invariants CoreInv holds the canonical form of memory, which is the model's own (log 3), and RUN is the one
cut off after a number of steps (log 9). -/
def Obligations.TransactionsKeepInvariant : Prop :=
  (∀ (c : Config) (program : List Word) (s : State), c.wf = true → load c program = .ok s → CoreInv s)
  ∧ ∀ s : State, CoreInv s →
    (∀ noun verb t, seed noun verb s = .ok t → CoreInv t)
    ∧ (∀ v t, pushInput v s = .ok t → CoreInv t)
    ∧ CoreInv (popOutput s).2
    ∧ (∀ fuel t r, run fuel s = some (t, r) → CoreInv t)

/-- R23, R116, R125: a transaction on one instance leaves every other instance as it was, and LOAD
leaves them all. The list of instances is the model's form (log 9), and that they may differ in their
configuration its choice (log 15). -/
def Obligations.InstancesAreIndependent : Prop :=
  ∀ (fuel h : Nat) (tx : HostTx) (rack rack' : Rack) (r : TxResult),
    hostAct fuel h tx rack = .done rack' r →
    ∀ j, j < rack.length → (j ≠ h ∨ ∃ c program, tx = .load c program) → rack'[j]? = rack[j]?

/-- R115 to R122, R125: what a transaction does to the instance its handle names and what it returns:
the instance becomes what SEED, PUSH_INPUT, POP_OUTPUT or RUN answers, READ_MEM leaves it as it was, DROP
empties its place and every later transaction on the handle is refused, a refused transaction or a RUN cut
off (log 9) gives no new instances, and LOAD makes a new one. Handles as positions in a list, and the names
of the refusals, are the model's (log 9), and so is the configuration that each LOAD names (log 15). -/
def Obligations.TransactionsActOnTheirInstance : Prop :=
  ∀ (fuel h : Nat) (s : State) (rack : Rack), rack[h]? = some (some s) →
    (∀ noun verb t, seed noun verb s = .ok t →
      ∃ rack', hostAct fuel h (.seed noun verb) rack = .done rack' .done ∧ rack'[h]? = some (some t))
    ∧ (∀ noun verb e, seed noun verb s = .error e → hostAct fuel h (.seed noun verb) rack = .refused e)
    ∧ (∀ v t, pushInput v s = .ok t →
      ∃ rack', hostAct fuel h (.pushInput v) rack = .done rack' .done ∧ rack'[h]? = some (some t))
    ∧ (∀ v e, pushInput v s = .error e → hostAct fuel h (.pushInput v) rack = .refused e)
    ∧ (∃ rack', hostAct fuel h .popOutput rack = .done rack' (.popped s.outq.head?)
      ∧ rack'[h]? = some (some { s with outq := s.outq.tail }))
    ∧ (∀ t r, run fuel s = some (t, r) →
      ∃ rack', hostAct fuel h .run rack = .done rack' (.finished r) ∧ rack'[h]? = some (some t))
    ∧ (run fuel s = none → hostAct fuel h .run rack = .noReturn)
    ∧ (∀ a : Nat, a < s.mem.size → ∃ rack', hostAct fuel h (.readMem (a : Int)) rack
      = .done rack' (.value (s.mem.get a)) ∧ rack'[h]? = some (some s))
    ∧ (∀ a : Int, a < 0 ∨ (s.mem.size : Int) ≤ a → ∃ e, hostAct fuel h (.readMem a) rack = .refused e)
    ∧ (∃ rack', hostAct fuel h .readAll rack = .done rack' (.values (readAll s))
      ∧ rack'[h]? = some (some s))
    ∧ (∃ rack', hostAct fuel h .drop rack = .done rack' .done ∧ rack'[h]? = some none
      ∧ ∀ fuel' tx, (∀ c program, tx ≠ .load c program) → hostAct fuel' h tx rack' = .refused .noInstance)
    ∧ ∀ c program u, load c program = .ok u → ∃ rack',
      hostAct fuel h (.load c program) rack = .done rack' (.created rack.length)
        ∧ rack'[rack.length]? = some (some u)

/-- R125, R138, R117 (decisions D12, D23): no transaction re-arms an instance: one that is Halted or
Faulted keeps STATUS, FAULT, memory and IP under every transaction on any handle, until it is dropped, and
a dropped one never comes back. The list of instances is the model's form (log 9), and that they may differ
in their configuration its choice (log 15). -/
def Obligations.InstanceIsNeverRearmed : Prop :=
  ∀ (fuel h j : Nat) (tx : HostTx) (rack rack' : Rack) (r : TxResult),
    hostAct fuel h tx rack = .done rack' r →
    (∀ s, rack[j]? = some (some s) → s.status ≠ .running →
      rack'[j]? = some none ∨ ∃ t, rack'[j]? = some (some t) ∧ t.status = s.status ∧ t.fault = s.fault
        ∧ t.mem = s.mem ∧ t.ip = s.ip ∧ t.cfg = s.cfg)
    ∧ (rack[j]? = some none → rack'[j]? = some none)

/-- R126: the relay hands every output of one instance to the back of another's INQ in order, when they
fit its cells, and leaves the first with an empty OUTQ. That the two may differ in their width is the model's
choice (log 15). -/
def Obligations.RelayKeepsOrder : Prop :=
  ∀ a b : State, (∀ v ∈ a.outq, Fits b.cfg v) →
    relay a b = .ok ({ a with outq := [] }, { b with inq := b.inq ++ a.outq })
end

