-- ==== Sys2Proof/Laws/Decode.lean ====
section
/-! SUPPORT. The small lemmas of the decoder and the encoder. -/

namespace Sys2Proof

theorem mem_opAll (op : Op) : op ∈ Op.all := by cases op <;> decide

/-- What `opOf` finds is in `OPSET` and has the id. -/
theorem opOf_some {c : Config} {id : Nat} {op : Op} (h : opOf c id = some op) :
    c.opset.get op = true ∧ c.opmap.get op = id := by
  have := List.find?_some h
  simpa using this

/-- Where `opOf` finds nothing, no operation of `OPSET` has the id. -/
theorem opOf_none {c : Config} {id : Nat} (h : opOf c id = none) (op : Op)
    (hs : c.opset.get op = true) : c.opmap.get op ≠ id := by
  have := List.find?_eq_none.1 h op (mem_opAll op)
  simpa [hs] using this

/-- In a legal configuration two operations with one id are the same operation. -/
theorem opmap_injective {c : Config} (h : c.idsDistinct = true) {a b : Op}
    (hab : c.opmap.get a = c.opmap.get b) : a = b := by
  have hn : (Op.all.map fun op => c.opmap.get op).Nodup := by simpa [Config.idsDistinct] using h
  exact List.inj_on_of_nodup_map hn (mem_opAll a) (mem_opAll b) hab

theorem opmap_lt {c : Config} (h : c.idsTwoDigits = true) (op : Op) : c.opmap.get op < 100 := by
  have := List.all_eq_true.1 h op (mem_opAll op)
  simpa using this

/-- The three checks of a legal configuration. -/
theorem Config.wf_iff (c : Config) :
    c.wf = true ↔ c.widthOk = true ∧ c.idsTwoDigits = true ∧ c.idsDistinct = true := by
  simp [Config.wf, and_assoc]

/-- In a legal configuration `opOf` finds every operation of `OPSET` under its id. -/
theorem opOf_opmap {c : Config} (h : c.wf = true) {op : Op} (hs : c.opset.get op = true) :
    opOf c (c.opmap.get op) = some op := by
  cases hf : opOf c (c.opmap.get op) with
  | none => exact absurd rfl (opOf_none hf op hs)
  | some op' => rw [opmap_injective ((Config.wf_iff c).1 h).2.2 (opOf_some hf).2]

@[simp] theorem modeOf_modeDigit (m : Mode) : modeOf (modeDigit m) = m := by cases m <;> rfl

theorem modeDigit_le (m : Mode) : modeDigit m ≤ 1 := by cases m <;> decide

/-- A legal mode digit is the digit of its mode. -/
theorem modeDigit_modeOf {d : Nat} (h : d ≤ 1) : modeDigit (modeOf d) = d := by
  interval_cases d <;> rfl

theorem digit_lt (w k : Nat) : digit w k < 10 := Nat.mod_lt _ (by decide)

/-- A word below 10^5 is the numeral of its five digits `C B A OP` (R51). -/
theorem word_of_digits {w : Nat} (h : w / 100000 = 0) :
    w % 100 + 100 * digit w 2 + 1000 * digit w 3 + 10000 * digit w 4 = w := by
  simp only [digit]
  omega

@[simp] theorem instrOf_op (op : Op) (m1 m2 m3 : Mode) : (instrOf op m1 m2 m3).op = op := by
  cases op <;> rfl

end Sys2Proof
end

