-- ==== Sys2Proof/Laws/Memory.lean ====
section
/-! SUPPORT. The laws of memory: a read after a write, the canonical form is kept, equal memories are
equal data, and what a loaded program holds. The read and write laws need no canonical form. -/

namespace Sys2Proof.Machine

/-! ### Lists of cells -/

theorem cellsGet_of_not_mem {l : List (Nat × Word)} {a : Nat} (h : ∀ c ∈ l, c.1 ≠ a) :
    cellsGet l a = unlisted := by
  induction l with
  | nil => rfl
  | cons c rest ih =>
    have hc := h c (by simp)
    simp only [cellsGet, if_neg hc]
    exact ih fun d hd => h d (by simp [hd])

theorem cellsGet_filter_ne {l : List (Nat × Word)} {a b : Nat} (h : b ≠ a) :
    cellsGet (l.filter fun c => c.1 != a) b = cellsGet l b := by
  induction l with
  | nil => rfl
  | cons c rest ih =>
    by_cases hc : c.1 = a
    · simp [hc, cellsGet, Ne.symm h, ih]
    · by_cases hb : c.1 = b <;> simp [hc, hb, h, cellsGet, ih]

theorem cellsGet_insert_self {l : List (Nat × Word)} {a : Nat} {v : Int} (h : ∀ c ∈ l, c.1 ≠ a) :
    cellsGet (cellsInsert l a v) a = v := by
  induction l with
  | nil => simp [cellsInsert, cellsGet]
  | cons c rest ih =>
    have hc := h c (by simp)
    simp only [cellsInsert]
    split
    · simp [cellsGet]
    · simp only [cellsGet, if_neg hc]
      exact ih fun d hd => h d (by simp [hd])

theorem cellsGet_insert_ne {l : List (Nat × Word)} {a b : Nat} {v : Int} (h : b ≠ a) :
    cellsGet (cellsInsert l a v) b = cellsGet l b := by
  induction l with
  | nil => simp [cellsInsert, cellsGet, Ne.symm h]
  | cons c rest ih =>
    simp only [cellsInsert]
    split
    · simp [cellsGet, Ne.symm h]
    · simp [cellsGet, ih]

theorem cellsGet_put (l : List (Nat × Word)) (a b : Nat) (v : Int) :
    cellsGet (cellsPut l a v) b = if b = a then v else cellsGet l b := by
  have hf : ∀ c ∈ l.filter (fun c => c.1 != a), c.1 ≠ a := by simp
  by_cases hb : b = a
  · subst hb
    by_cases hv : v = unlisted
    · simp only [cellsPut, if_pos hv, if_true]
      rw [cellsGet_of_not_mem hf, hv]
    · simp only [cellsPut, if_neg hv, if_true, cellsGet_insert_self hf]
  · by_cases hv : v = unlisted
    · simp only [cellsPut, if_pos hv, if_neg hb, cellsGet_filter_ne hb]
    · simp only [cellsPut, if_neg hv, if_neg hb, cellsGet_insert_ne hb, cellsGet_filter_ne hb]

theorem mem_cellsInsert {l : List (Nat × Word)} {a : Nat} {v : Int} {c : Nat × Word}
    (h : c ∈ cellsInsert l a v) : c = (a, v) ∨ c ∈ l := by
  induction l with
  | nil => simpa [cellsInsert] using h
  | cons d rest ih =>
    simp only [cellsInsert] at h
    split at h
    · simpa using h
    · rcases List.mem_cons.1 h with h | h
      · exact .inr (by simp [h])
      · exact (ih h).imp id fun h => by simp [h]

theorem pairwise_cellsInsert {l : List (Nat × Word)} {a : Nat} {v : Int}
    (hl : l.Pairwise fun x y => x.1 < y.1) (ha : ∀ c ∈ l, c.1 ≠ a) :
    (cellsInsert l a v).Pairwise fun x y => x.1 < y.1 := by
  induction l with
  | nil => simp [cellsInsert]
  | cons d rest ih =>
    obtain ⟨hd, hrest⟩ := List.pairwise_cons.1 hl
    simp only [cellsInsert]
    split
    · rename_i hlt
      refine List.pairwise_cons.2 ⟨fun c hc => ?_, hl⟩
      rcases List.mem_cons.1 hc with rfl | hc
      · exact hlt
      · exact Nat.lt_trans hlt (hd c hc)
    · rename_i hlt
      refine List.pairwise_cons.2 ⟨fun c hc => ?_, ih hrest fun c hc => ha c (by simp [hc])⟩
      rcases mem_cellsInsert hc with rfl | hc
      · have := ha d (by simp)
        show d.1 < a
        omega
      · exact hd c hc

/-! ### Memory -/

@[simp] theorem Memory.put_size (m : Memory) (a : Nat) (v : Int) : (m.put a v).size = m.size := rfl

theorem Memory.get_put (m : Memory) (a b : Nat) (v : Int) :
    (m.put a v).get b = if b = a then v else m.get b := cellsGet_put m.cells a b v

@[simp] theorem Memory.get_put_self (m : Memory) (a : Nat) (v : Int) : (m.put a v).get a = v := by
  simp [Memory.get_put]

theorem Memory.get_put_ne (m : Memory) {a b : Nat} (v : Int) (h : b ≠ a) :
    (m.put a v).get b = m.get b := by simp [Memory.get_put, h]

/-- The bounds check of R32, as a proposition. -/
theorem Memory.valid_iff (m : Memory) (a : Int) :
    m.valid a = true ↔ 0 ≤ a ∧ a < (m.size : Int) := by simp [Memory.valid]

theorem Memory.valid_ofNat (m : Memory) (a : Nat) : m.valid (a : Int) = decide (a < m.size) := by
  simp [Memory.valid]

theorem Memory.read_ofNat (m : Memory) (a : Nat) :
    m.read (a : Int) = if a < m.size then some (m.get a) else none := by
  simp [Memory.read, Memory.valid_ofNat]

theorem Memory.write_ofNat (m : Memory) (a : Nat) (v : Int) :
    m.write (a : Int) v = if a < m.size then some (m.put a v) else none := by
  simp [Memory.write, Memory.valid_ofNat]

/-- Writing a valid address keeps the canonical form. -/
theorem Memory.put_wf {m : Memory} (h : m.wf) {a : Nat} (ha : a < m.size) (v : Int) :
    (m.put a v).wf := by
  have hpair := h.1.filter fun c => c.1 != a
  have hf : ∀ c ∈ m.cells.filter (fun c => c.1 != a), c.1 ≠ a := by simp
  by_cases hv : v = unlisted
  · refine ⟨by simpa [Memory.put, cellsPut, hv] using hpair, fun c hc => ?_⟩
    have hc' : c ∈ m.cells := by
      have : c ∈ m.cells.filter (fun c => c.1 != a) := by simpa [Memory.put, cellsPut, hv] using hc
      exact (List.mem_filter.1 this).1
    exact h.2 c hc'
  · refine ⟨?_, fun c hc => ?_⟩
    · simpa [Memory.put, cellsPut, hv] using pairwise_cellsInsert hpair hf
    · have : c ∈ cellsInsert (m.cells.filter fun c => c.1 != a) a v := by
        simpa [Memory.put, cellsPut, hv] using hc
      rcases mem_cellsInsert this with rfl | hc
      · exact ⟨hv, ha⟩
      · exact h.2 c (List.mem_filter.1 hc).1

/-- `MemWrite` (R34) keeps the canonical form. -/
theorem Memory.write_wf {m m' : Memory} (h : m.wf) {a : Int} {v : Int} (hw : m.write a v = some m') :
    m'.wf := by
  unfold Memory.write at hw
  split at hw
  · rename_i hv
    obtain ⟨h0, h1⟩ := (m.valid_iff a).1 hv
    cases hw
    exact Memory.put_wf h (by omega) v
  · cases hw

theorem cellsGet_eq_of_mem {l : List (Nat × Word)} (hp : l.Pairwise fun x y => x.1 < y.1)
    {c : Nat × Word} (hc : c ∈ l) : cellsGet l c.1 = c.2 := by
  induction l with
  | nil => cases hc
  | cons d rest ih =>
    obtain ⟨hd, hrest⟩ := List.pairwise_cons.1 hp
    rcases List.mem_cons.1 hc with rfl | hc
    · simp [cellsGet]
    · have := hd c hc
      simp only [cellsGet, if_neg (show d.1 ≠ c.1 by omega)]
      exact ih hrest hc

/-- Canonical cell lists that read alike are the same list. -/
theorem cells_ext {l l' : List (Nat × Word)}
    (hp : l.Pairwise fun x y => x.1 < y.1) (hp' : l'.Pairwise fun x y => x.1 < y.1)
    (hz : ∀ c ∈ l, c.2 ≠ unlisted) (hz' : ∀ c ∈ l', c.2 ≠ unlisted)
    (h : ∀ a, cellsGet l a = cellsGet l' a) : l = l' := by
  have sub : ∀ {l l' : List (Nat × Word)}, l.Pairwise (fun x y => x.1 < y.1) →
      (∀ c ∈ l, c.2 ≠ unlisted) → (∀ a, cellsGet l a = cellsGet l' a) → ∀ c ∈ l, c ∈ l' := by
    intro l l' hp hz h c hc
    have hget : cellsGet l' c.1 = c.2 := by rw [← h, cellsGet_eq_of_mem hp hc]
    have hne := hz c hc
    clear hp hz h hc
    induction l' with
    | nil => exact absurd hget.symm hne
    | cons d rest ih =>
      simp only [cellsGet] at hget
      split at hget
      · rename_i hd
        exact List.mem_cons.2 (.inl (Prod.ext hd.symm hget.symm))
      · exact List.mem_cons.2 (.inr (ih hget))
  have nodup : ∀ {l : List (Nat × Word)}, l.Pairwise (fun x y => x.1 < y.1) → l.Nodup :=
    fun hp => hp.imp fun hlt he => by simp [he] at hlt
  have hperm : l.Perm l' := (List.perm_ext_iff_of_nodup (nodup hp) (nodup hp')).2 fun c =>
    ⟨sub hp hz h c, sub hp' hz' (fun a => (h a).symm) c⟩
  exact hperm.eq_of_pairwise (fun x y _ _ hxy hyx => absurd hxy (by omega)) hp hp'

/-- Equal memories are equal data: canonical memories of one size that read alike are equal. -/
theorem Memory.ext_of_wf {m m' : Memory} (h : m.wf) (h' : m'.wf) (hs : m.size = m'.size)
    (hg : ∀ a, m.get a = m'.get a) : m = m' := by
  have hc : m.cells = m'.cells :=
    cells_ext h.1 h'.1 (fun c hc => (h.2 c hc).1) (fun c hc => (h'.2 c hc).1) hg
  cases m; cases m'; simp_all

/-! ### Loading and reading back -/

theorem cellsOfList_bounds {l : List Word} {k : Nat} {c : Nat × Word} (h : c ∈ cellsOfList k l) :
    k ≤ c.1 ∧ c.1 < k + l.length ∧ c.2 ≠ unlisted := by
  induction l generalizing k with
  | nil => cases h
  | cons v rest ih =>
    simp only [cellsOfList] at h
    split at h
    · obtain ⟨h1, h2, h3⟩ := ih h
      simp only [List.length_cons]
      exact ⟨by omega, by omega, h3⟩
    · rename_i hv
      rcases List.mem_cons.1 h with rfl | h
      · exact ⟨Nat.le_refl _, by simp, hv⟩
      · obtain ⟨h1, h2, h3⟩ := ih h
        simp only [List.length_cons]
        exact ⟨by omega, by omega, h3⟩

theorem cellsOfList_pairwise (l : List Word) (k : Nat) :
    (cellsOfList k l).Pairwise fun x y => x.1 < y.1 := by
  induction l generalizing k with
  | nil => exact List.Pairwise.nil
  | cons v rest ih =>
    simp only [cellsOfList]
    split
    · exact ih (k + 1)
    · refine List.pairwise_cons.2 ⟨fun c hc => ?_, ih (k + 1)⟩
      have := (cellsOfList_bounds hc).1
      show k < c.1
      omega

theorem cellsGet_ofList (l : List Word) (k j : Nat) :
    cellsGet (cellsOfList k l) (k + j) = l.getD j unlisted := by
  induction l generalizing k j with
  | nil => simp [cellsOfList, cellsGet]
  | cons v rest ih =>
    have hnone : cellsGet (cellsOfList (k + 1) rest) k = unlisted :=
      cellsGet_of_not_mem fun c hc => by
        have := (cellsOfList_bounds hc).1
        omega
    cases j with
    | zero =>
      simp only [cellsOfList]
      split
      · rename_i hv
        simp [hnone, hv]
      · simp [cellsGet]
    | succ j =>
      have hj : k + (j + 1) = k + 1 + j := by omega
      simp only [cellsOfList]
      split
      · rw [hj, ih]; simp
      · simp only [cellsGet, if_neg (show k ≠ k + (j + 1) by omega)]
        rw [hj, ih]; simp

/-- The memory of a loaded program has the canonical form. -/
theorem Memory.ofList_wf (l : List Word) : (Memory.ofList l).wf :=
  ⟨cellsOfList_pairwise l 0, fun c hc => by
    have := cellsOfList_bounds hc
    exact ⟨this.2.2, by simpa [Memory.ofList] using this.2.1⟩⟩

/-- A loaded program is read back cell by cell. -/
theorem Memory.get_ofList (l : List Word) (a : Nat) : (Memory.ofList l).get a = l.getD a unlisted := by
  have h := cellsGet_ofList l 0 a
  rwa [Nat.zero_add] at h

/-- The whole memory of a loaded program is the program (R116, R122). -/
theorem Memory.toList_ofList (l : List Word) : (Memory.ofList l).toList = l := by
  apply List.ext_getElem
  · simp [Memory.toList, Memory.ofList]
  · intro i h1 h2
    simp [Memory.toList, Memory.get_ofList, h2]

/-- Reset memory has the canonical form. -/
theorem reset_mem_wf : State.reset.mem.wf := by
  refine ⟨List.Pairwise.nil, fun c hc => ?_⟩
  cases hc

end Sys2Proof.Machine
end

