-- ==== Sys2Proof/Laws/State.lean ====
section
/-! SUPPORT. One lemma per field per named update of State, so that no proof unfolds a record update. -/

namespace Sys2Proof.Machine

@[simp] theorem State.setMem_cfg (s : State) (m : Memory) : (s.setMem m).cfg = s.cfg := rfl
@[simp] theorem State.setMem_mem (s : State) (m : Memory) : (s.setMem m).mem = m := rfl
@[simp] theorem State.setMem_ip (s : State) (m : Memory) : (s.setMem m).ip = s.ip := rfl
@[simp] theorem State.setMem_inq (s : State) (m : Memory) : (s.setMem m).inq = s.inq := rfl
@[simp] theorem State.setMem_outq (s : State) (m : Memory) : (s.setMem m).outq = s.outq := rfl
@[simp] theorem State.setMem_status (s : State) (m : Memory) : (s.setMem m).status = s.status := rfl
@[simp] theorem State.setMem_fault (s : State) (m : Memory) : (s.setMem m).fault = s.fault := rfl

@[simp] theorem State.setIp_cfg (s : State) (a : Nat) : (s.setIp a).cfg = s.cfg := rfl
@[simp] theorem State.setIp_mem (s : State) (a : Nat) : (s.setIp a).mem = s.mem := rfl
@[simp] theorem State.setIp_ip (s : State) (a : Nat) : (s.setIp a).ip = a := rfl
@[simp] theorem State.setIp_inq (s : State) (a : Nat) : (s.setIp a).inq = s.inq := rfl
@[simp] theorem State.setIp_outq (s : State) (a : Nat) : (s.setIp a).outq = s.outq := rfl
@[simp] theorem State.setIp_status (s : State) (a : Nat) : (s.setIp a).status = s.status := rfl
@[simp] theorem State.setIp_fault (s : State) (a : Nat) : (s.setIp a).fault = s.fault := rfl

@[simp] theorem State.setInq_cfg (s : State) (q : List Word) : (s.setInq q).cfg = s.cfg := rfl
@[simp] theorem State.setInq_mem (s : State) (q : List Word) : (s.setInq q).mem = s.mem := rfl
@[simp] theorem State.setInq_ip (s : State) (q : List Word) : (s.setInq q).ip = s.ip := rfl
@[simp] theorem State.setInq_inq (s : State) (q : List Word) : (s.setInq q).inq = q := rfl
@[simp] theorem State.setInq_outq (s : State) (q : List Word) : (s.setInq q).outq = s.outq := rfl
@[simp] theorem State.setInq_status (s : State) (q : List Word) : (s.setInq q).status = s.status := rfl
@[simp] theorem State.setInq_fault (s : State) (q : List Word) : (s.setInq q).fault = s.fault := rfl

@[simp] theorem State.setOutq_cfg (s : State) (q : List Word) : (s.setOutq q).cfg = s.cfg := rfl
@[simp] theorem State.setOutq_mem (s : State) (q : List Word) : (s.setOutq q).mem = s.mem := rfl
@[simp] theorem State.setOutq_ip (s : State) (q : List Word) : (s.setOutq q).ip = s.ip := rfl
@[simp] theorem State.setOutq_inq (s : State) (q : List Word) : (s.setOutq q).inq = s.inq := rfl
@[simp] theorem State.setOutq_outq (s : State) (q : List Word) : (s.setOutq q).outq = q := rfl
@[simp] theorem State.setOutq_status (s : State) (q : List Word) : (s.setOutq q).status = s.status := rfl
@[simp] theorem State.setOutq_fault (s : State) (q : List Word) : (s.setOutq q).fault = s.fault := rfl

@[simp] theorem State.halt_cfg (s : State) : (s.halt).cfg = s.cfg := rfl
@[simp] theorem State.halt_mem (s : State) : (s.halt).mem = s.mem := rfl
@[simp] theorem State.halt_ip (s : State) : (s.halt).ip = s.ip := rfl
@[simp] theorem State.halt_inq (s : State) : (s.halt).inq = s.inq := rfl
@[simp] theorem State.halt_outq (s : State) : (s.halt).outq = s.outq := rfl
@[simp] theorem State.halt_status (s : State) : (s.halt).status = .halted := rfl
@[simp] theorem State.halt_fault (s : State) : (s.halt).fault = s.fault := rfl

@[simp] theorem raise_cfg (k : FaultKind) (s : State) : (raise k s).cfg = s.cfg := rfl
@[simp] theorem raise_mem (k : FaultKind) (s : State) : (raise k s).mem = s.mem := rfl
@[simp] theorem raise_ip (k : FaultKind) (s : State) : (raise k s).ip = s.ip := rfl
@[simp] theorem raise_inq (k : FaultKind) (s : State) : (raise k s).inq = s.inq := rfl
@[simp] theorem raise_outq (k : FaultKind) (s : State) : (raise k s).outq = s.outq := rfl
@[simp] theorem raise_status (k : FaultKind) (s : State) : (raise k s).status = .faulted := rfl
@[simp] theorem raise_fault (k : FaultKind) (s : State) : (raise k s).fault = some k := rfl

@[simp] theorem advance_cfg (w : Nat) (s : State) : (advance w s).cfg = s.cfg := rfl
@[simp] theorem advance_mem (w : Nat) (s : State) : (advance w s).mem = s.mem := rfl
@[simp] theorem advance_ip (w : Nat) (s : State) : (advance w s).ip = s.ip + w := rfl
@[simp] theorem advance_inq (w : Nat) (s : State) : (advance w s).inq = s.inq := rfl
@[simp] theorem advance_outq (w : Nat) (s : State) : (advance w s).outq = s.outq := rfl
@[simp] theorem advance_status (w : Nat) (s : State) : (advance w s).status = s.status := rfl
@[simp] theorem advance_fault (w : Nat) (s : State) : (advance w s).fault = s.fault := rfl

@[simp] theorem pushOut_cfg (v : Int) (s : State) : (pushOut v s).cfg = s.cfg := rfl
@[simp] theorem pushOut_mem (v : Int) (s : State) : (pushOut v s).mem = s.mem := rfl
@[simp] theorem pushOut_ip (v : Int) (s : State) : (pushOut v s).ip = s.ip := rfl
@[simp] theorem pushOut_inq (v : Int) (s : State) : (pushOut v s).inq = s.inq := rfl
@[simp] theorem pushOut_outq (v : Int) (s : State) : (pushOut v s).outq = s.outq ++ [v] := rfl
@[simp] theorem pushOut_status (v : Int) (s : State) : (pushOut v s).status = s.status := rfl
@[simp] theorem pushOut_fault (v : Int) (s : State) : (pushOut v s).fault = s.fault := rfl

/-- Two states with the same fields are equal. -/
theorem State.ext_fields {s t : State} (hcfg : s.cfg = t.cfg) (hmem : s.mem = t.mem) (hip : s.ip = t.ip)
    (hinq : s.inq = t.inq) (houtq : s.outq = t.outq) (hstatus : s.status = t.status)
    (hfault : s.fault = t.fault) : s = t := by
  cases s; cases t; simp_all

end Sys2Proof.Machine
end

