-- ==== Sys2Proof/Laws/Operands.lean ====
section
/-! SUPPORT. What the range check, the resolver and the formats can do, said once each. -/

namespace Sys2Proof.Machine

/-! ### Range and wrapping -/

theorem wrapW_bounds (n : Nat) (hn : 1 ≤ n) (v : Int) : minW n ≤ wrapW n v ∧ wrapW n v ≤ maxW n := by
  obtain ⟨k, rfl⟩ : ∃ k, n = k + 1 := ⟨n - 1, by omega⟩
  have hpos : (0 : Nat) < 2 ^ (k + 1) := Nat.two_pow_pos _
  have hk : (2 : Nat) ^ (k + 1) = 2 * 2 ^ k := by rw [Nat.pow_succ]; omega
  have h1 := Int.le_bmod (x := v) hpos
  have h2 := Int.bmod_lt (x := v) hpos
  simp only [minW, maxW, wrapW, Nat.add_sub_cancel]
  rw [hk] at h1 h2 ⊢
  obtain ⟨p, hp⟩ : ∃ p : Nat, p = 2 ^ k := ⟨_, rfl⟩
  simp only [← hp] at h1 h2 ⊢
  omega

/-- `wrap_W(v)` is congruent to `v` modulo `2^W` (R7). -/
theorem wrapW_dvd (n : Nat) (v : Int) : ((2 ^ n : Nat) : Int) ∣ v - wrapW n v :=
  Int.dvd_self_sub_bmod

/-- Everything `narrow` answers (R92). -/
theorem narrow_cases (c : Config) (r : Int) :
    (inRange c r = true ∧ narrow c r = some r)
    ∨ (inRange c r = false ∧ c.ovf = .fault ∧ narrow c r = none)
    ∨ (∃ n, c.width = some n ∧ inRange c r = false ∧ c.ovf = .wrap ∧ narrow c r = some (wrapW n r)) := by
  cases hr : inRange c r with
  | true => exact .inl ⟨rfl, by simp [narrow, hr]⟩
  | false =>
    refine .inr ?_
    cases ho : c.ovf with
    | fault => exact .inl ⟨rfl, rfl, by simp [narrow, hr, ho]⟩
    | wrap =>
      cases hw : c.width with
      | none => simp [inRange, hw] at hr
      | some n => exact .inr ⟨n, rfl, rfl, rfl, by simp [narrow, hr, ho, hw]⟩

theorem truth_cases (b : Bool) : truth b = 0 ∨ truth b = 1 := by cases b <;> simp [truth]

/-! ### The resolver -/

/-- Everything the resolver answers (R75). -/
theorem resolve_cases (s : State) (i : Nat) (m : Mode) :
    (s.mem.size ≤ s.ip + i ∧ resolve s i m = none)
    ∨ (s.ip + i < s.mem.size ∧ m = .immediate ∧ resolve s i m = some (s.ip + i))
    ∨ (s.ip + i < s.mem.size ∧ m = .position ∧ s.mem.valid (s.mem.get (s.ip + i)) = true
        ∧ resolve s i m = some (s.mem.get (s.ip + i)).toNat)
    ∨ (s.ip + i < s.mem.size ∧ m = .position ∧ s.mem.valid (s.mem.get (s.ip + i)) = false
        ∧ resolve s i m = none) := by
  by_cases hc : s.ip + i < s.mem.size
  · have hread : s.mem.read ((s.ip + i : Nat) : Int) = some (s.mem.get (s.ip + i)) := by
      rw [Memory.read_ofNat, if_pos hc]
    cases m with
    | immediate => exact .inr (.inl ⟨hc, rfl, by simp only [resolve, hread]⟩)
    | position =>
      cases hv : s.mem.valid (s.mem.get (s.ip + i)) with
      | true => exact .inr (.inr (.inl ⟨hc, rfl, rfl, by simp only [resolve, hread, hv, if_true]⟩))
      | false =>
        refine .inr (.inr (.inr ⟨hc, rfl, rfl, ?_⟩))
        simp only [resolve, hread, hv]
        rfl
  · have hread : s.mem.read ((s.ip + i : Nat) : Int) = none := by
      rw [Memory.read_ofNat, if_neg hc]
    exact .inl ⟨by omega, by simp only [resolve, hread]⟩

/-- A resolved address is valid (R75). -/
theorem resolve_lt {s : State} {i : Nat} {m : Mode} {a : Nat} (h : resolve s i m = some a) :
    a < s.mem.size := by
  rcases resolve_cases s i m with ⟨_, hr⟩ | ⟨hc, _, hr⟩ | ⟨_, _, hv, hr⟩ | ⟨_, _, _, hr⟩ <;>
    rw [hr] at h
  · cases h
  · cases h; exact hc
  · cases h
    obtain ⟨h0, h1⟩ := (s.mem.valid_iff _).1 hv
    omega
  · cases h

theorem operand_lt {s : State} {op : Op} {i : Nat} {m : Mode} {a : Nat}
    (h : operand s op i m = some a) : a < s.mem.size := resolve_lt h

/-! ### The formats -/

theorem withF1_cases (op : Op) (m1 : Mode) (s : State) (k : Nat → State) :
    (∃ a1, operand s op 1 m1 = some a1 ∧ withF1 op m1 s k = k a1)
    ∨ (operand s op 1 m1 = none ∧ withF1 op m1 s k = raise .addressFault s) := by
  unfold withF1
  cases operand s op 1 m1 <;> simp

theorem withF2_cases (op : Op) (m1 m2 : Mode) (s : State) (k : Nat → Nat → State) :
    (∃ a1 a2, operand s op 1 m1 = some a1 ∧ operand s op 2 m2 = some a2 ∧ withF2 op m1 m2 s k = k a1 a2)
    ∨ ((operand s op 1 m1 = none ∨ operand s op 2 m2 = none)
        ∧ withF2 op m1 m2 s k = raise .addressFault s) := by
  unfold withF2
  cases operand s op 1 m1 <;> cases operand s op 2 m2 <;> simp

theorem withF3_cases (op : Op) (m1 m2 m3 : Mode) (s : State) (k : Nat → Nat → Nat → State) :
    (∃ a1 a2 a3, operand s op 1 m1 = some a1 ∧ operand s op 2 m2 = some a2
        ∧ operand s op 3 m3 = some a3 ∧ withF3 op m1 m2 m3 s k = k a1 a2 a3)
    ∨ ((operand s op 1 m1 = none ∨ operand s op 2 m2 = none ∨ operand s op 3 m3 = none)
        ∧ withF3 op m1 m2 m3 s k = raise .addressFault s) := by
  unfold withF3
  cases operand s op 1 m1 <;> cases operand s op 2 m2 <;> cases operand s op 3 m3 <;> simp

/-! ### The destination write -/

/-- A write to a resolved address never faults (R78): it is the write and the advance. -/
theorem writeBack_of_lt {a : Nat} {s : State} (h : a < s.mem.size) (v : Int) (w : Nat) :
    writeBack a v w s = advance w (s.setMem (s.mem.put a v)) := by
  unfold writeBack
  rw [Memory.write_ofNat, if_pos h]

/-- Everything `writeBack` can do. -/
theorem writeBack_cases (a : Nat) (v : Int) (w : Nat) (s : State) :
    (a < s.mem.size ∧ writeBack a v w s = advance w (s.setMem (s.mem.put a v)))
    ∨ (s.mem.size ≤ a ∧ writeBack a v w s = raise .addressFault s) := by
  by_cases h : a < s.mem.size
  · exact .inl ⟨h, writeBack_of_lt h v w⟩
  · refine .inr ⟨by omega, ?_⟩
    unfold writeBack
    rw [Memory.write_ofNat, if_neg h]

end Sys2Proof.Machine
end

