-- ==== Sys2Proof/Laws/Exec.lean ====
section
/-! SUPPORT. What the tails of the instructions, the fetch and one instruction can do, said once each. -/

namespace Sys2Proof.Machine

/-- Everything the common tail of ADD and MUL can do once the destination is resolved (R90 to R92). -/
theorem writeArith_cases (op : Op) (r : Int) {a : Nat} {s : State} (ha : a < s.mem.size) :
    (s.cfg.ovf = .fault ∧ inRange s.cfg r = false ∧ writeArith op r a s = raise .overflow s)
    ∨ (∃ v, narrow s.cfg r = some v
        ∧ writeArith op r a s = advance op.width (s.setMem (s.mem.put a v))) := by
  unfold writeArith
  rcases narrow_cases s.cfg r with ⟨_, hn⟩ | ⟨hr, ho, hn⟩ | ⟨n, _, _, _, hn⟩ <;> rw [hn]
  · exact .inr ⟨_, rfl, writeBack_of_lt ha _ _⟩
  · exact .inl ⟨ho, hr, rfl⟩
  · exact .inr ⟨_, rfl, writeBack_of_lt ha _ _⟩

/-- Everything the common tail of the jumps can do (R100 to R102). -/
theorem jumpIf_cases (taken : Bool) (t : Int) (w : Nat) (s : State) :
    (taken = true ∧ t < 0 ∧ jumpIf taken t w s = raise .addressFault s)
    ∨ (taken = true ∧ 0 ≤ t ∧ jumpIf taken t w s = s.setIp t.toNat)
    ∨ (taken = false ∧ jumpIf taken t w s = advance w s) := by
  cases taken with
  | false => exact .inr (.inr ⟨rfl, rfl⟩)
  | true =>
    by_cases ht : t < 0
    · exact .inl ⟨rfl, ht, by simp [jumpIf, ht]⟩
    · exact .inr (.inl ⟨rfl, Int.not_lt.1 ht, by simp [jumpIf, ht]⟩)

/-- Everything fetch and decode can answer (R71, R72). -/
theorem fetchDecode_cases (s : State) :
    (s.mem.size ≤ s.ip ∧ fetchDecode s = .error .addressFault)
    ∨ (s.ip < s.mem.size ∧ (∃ why, decode s.cfg (s.mem.get s.ip) = .error why)
        ∧ fetchDecode s = .error .decodeError)
    ∨ (∃ i, s.ip < s.mem.size ∧ decode s.cfg (s.mem.get s.ip) = .ok i ∧ fetchDecode s = .ok i) := by
  unfold fetchDecode
  rw [Memory.read_ofNat]
  by_cases h : s.ip < s.mem.size
  · simp only [if_pos h]
    cases hd : decode s.cfg (s.mem.get s.ip) with
    | error why => exact .inr (.inl ⟨h, ⟨why, by simp⟩, rfl⟩)
    | ok i => exact .inr (.inr ⟨i, h, by simp, rfl⟩)
  · simp only [if_neg h]
    exact .inl ⟨by omega, by simp⟩

/-- The value an instruction with two sources and a destination stores (R90, R91, R105, R106); `none`
for the other operations and where ADD or MUL raises `Overflow`. -/
def storedValue (c : Config) : Op → Int → Int → Option Int
  | .add, x, y => narrow c (x + y)
  | .mul, x, y => narrow c (x * y)
  | .lt, x, y => some (truth (decide (x < y)))
  | .eq, x, y => some (truth (decide (x = y)))
  | _, _, _ => none

/-- The instructions of format F3 with two sources and a destination (R53). -/
def IsF3 (i : Instr) (m1 m2 m3 : Mode) : Prop :=
  i = .add m1 m2 m3 ∨ i = .mul m1 m2 m3 ∨ i = .lt m1 m2 m3 ∨ i = .eq m1 m2 m3

/-- Everything an instruction can do, guards included: the resulting states are those of the rules'
pseudocode (R90, R91, R95, R96, R100, R101, R105, R106, R110) and of the fault entry (R136). -/
inductive Effect (i : Instr) (s : State) : State → Prop where
  | unresolved (k : Nat) (m : Mode) (hm : i.modes[k]? = some m) (hn : operand s i.op (k + 1) m = none) :
      Effect i s (raise .addressFault s)
  | overflow (m1 m2 m3 : Mode) (a1 a2 a3 : Nat) (r : Int)
      (hi : (i = .add m1 m2 m3 ∧ r = s.mem.get a1 + s.mem.get a2)
        ∨ (i = .mul m1 m2 m3 ∧ r = s.mem.get a1 * s.mem.get a2))
      (h1 : operand s i.op 1 m1 = some a1) (h2 : operand s i.op 2 m2 = some a2)
      (h3 : operand s i.op 3 m3 = some a3)
      (ho : s.cfg.ovf = .fault) (hr : inRange s.cfg r = false) : Effect i s (raise .overflow s)
  | store (m1 m2 m3 : Mode) (a1 a2 a3 : Nat) (v : Int) (hi : IsF3 i m1 m2 m3)
      (h1 : operand s i.op 1 m1 = some a1) (h2 : operand s i.op 2 m2 = some a2)
      (h3 : operand s i.op 3 m3 = some a3)
      (hv : storedValue s.cfg i.op (s.mem.get a1) (s.mem.get a2) = some v) :
      Effect i s (advance 4 (s.setMem (s.mem.put a3 v)))
  | starved (m : Mode) (a : Nat) (hi : i = .inp m) (hd : operand s .inp 1 m = some a) (hq : s.inq = []) :
      Effect i s (raise .inputStarved s)
  | input (m : Mode) (a : Nat) (v : Int) (rest : List Word) (hi : i = .inp m)
      (hd : operand s .inp 1 m = some a) (hq : s.inq = v :: rest) :
      Effect i s (advance 2 ((s.setInq rest).setMem (s.mem.put a v)))
  | output (m : Mode) (a : Nat) (hi : i = .out m) (hs : operand s .out 1 m = some a) :
      Effect i s (advance 2 (pushOut (s.mem.get a) s))
  | badTarget (m1 m2 : Mode) (a1 a2 : Nat)
      (hi : (i = .jt m1 m2 ∧ s.mem.get a1 ≠ 0) ∨ (i = .jf m1 m2 ∧ s.mem.get a1 = 0))
      (h1 : operand s i.op 1 m1 = some a1) (h2 : operand s i.op 2 m2 = some a2)
      (ht : s.mem.get a2 < 0) : Effect i s (raise .addressFault s)
  | jump (m1 m2 : Mode) (a1 a2 : Nat)
      (hi : (i = .jt m1 m2 ∧ s.mem.get a1 ≠ 0) ∨ (i = .jf m1 m2 ∧ s.mem.get a1 = 0))
      (h1 : operand s i.op 1 m1 = some a1) (h2 : operand s i.op 2 m2 = some a2)
      (ht : 0 ≤ s.mem.get a2) : Effect i s (s.setIp (s.mem.get a2).toNat)
  | fallThrough (m1 m2 : Mode) (a1 a2 : Nat)
      (hi : (i = .jt m1 m2 ∧ s.mem.get a1 = 0) ∨ (i = .jf m1 m2 ∧ s.mem.get a1 ≠ 0))
      (h1 : operand s i.op 1 m1 = some a1) (h2 : operand s i.op 2 m2 = some a2) :
      Effect i s (advance 3 s)
  | halt (hi : i = .hlt) : Effect i s (advance 1 s.halt)

/-- ADD or MUL: everything `withF3` over `writeArith` can do. -/
theorem arith_effect {i : Instr} {m1 m2 m3 : Mode} (s : State) (f : Int → Int → Int)
    (hi : (i = .add m1 m2 m3 ∧ ∀ x y, f x y = x + y) ∨ (i = .mul m1 m2 m3 ∧ ∀ x y, f x y = x * y)) :
    Effect i s (withF3 i.op m1 m2 m3 s fun a1 a2 a3 =>
      writeArith i.op (f (s.mem.get a1) (s.mem.get a2)) a3 s) := by
  have hmodes : i.modes = [m1, m2, m3] := by rcases hi with ⟨rfl, _⟩ | ⟨rfl, _⟩ <;> rfl
  have hw : i.op.width = 4 := by rcases hi with ⟨rfl, _⟩ | ⟨rfl, _⟩ <;> rfl
  have hf : ∀ x y, storedValue s.cfg i.op x y = narrow s.cfg (f x y) := fun x y => by
    rcases hi with ⟨rfl, h⟩ | ⟨rfl, h⟩ <;> rw [h] <;> rfl
  rcases withF3_cases i.op m1 m2 m3 s _ with ⟨a1, a2, a3, h1, h2, h3, he⟩ | ⟨hn, he⟩ <;> rw [he]
  · rcases writeArith_cases i.op (f (s.mem.get a1) (s.mem.get a2)) (operand_lt h3) with
      ⟨ho, hr, hwr⟩ | ⟨v, hv, hwr⟩ <;> rw [hwr]
    · exact .overflow m1 m2 m3 a1 a2 a3 _ (hi.imp (fun h => ⟨h.1, h.2 _ _⟩) fun h => ⟨h.1, h.2 _ _⟩)
        h1 h2 h3 ho hr
    · rw [hw]
      exact .store m1 m2 m3 a1 a2 a3 v (hi.elim (fun h => .inl h.1) fun h => .inr (.inl h.1)) h1 h2 h3
        (by rw [hf, hv])
  · rcases hn with h | h | h
    · exact .unresolved 0 m1 (by simp [hmodes]) h
    · exact .unresolved 1 m2 (by simp [hmodes]) h
    · exact .unresolved 2 m3 (by simp [hmodes]) h

/-- LT or EQ: everything `withF3` over `writeBack` can do. -/
theorem compare_effect {i : Instr} {m1 m2 m3 : Mode} (s : State) (f : Int → Int → Bool)
    (hi : i = .lt m1 m2 m3 ∨ i = .eq m1 m2 m3)
    (hf : ∀ x y, storedValue s.cfg i.op x y = some (truth (f x y))) :
    Effect i s (withF3 i.op m1 m2 m3 s fun a1 a2 a3 =>
      writeBack a3 (truth (f (s.mem.get a1) (s.mem.get a2))) i.op.width s) := by
  have hmodes : i.modes = [m1, m2, m3] := by rcases hi with rfl | rfl <;> rfl
  have hw : i.op.width = 4 := by rcases hi with rfl | rfl <;> rfl
  rcases withF3_cases i.op m1 m2 m3 s _ with ⟨a1, a2, a3, h1, h2, h3, he⟩ | ⟨hn, he⟩ <;> rw [he]
  · rw [writeBack_of_lt (operand_lt h3), hw]
    exact .store m1 m2 m3 a1 a2 a3 _ (.inr (.inr hi)) h1 h2 h3 (hf _ _)
  · rcases hn with h | h | h
    · exact .unresolved 0 m1 (by simp [hmodes]) h
    · exact .unresolved 1 m2 (by simp [hmodes]) h
    · exact .unresolved 2 m3 (by simp [hmodes]) h

/-- JT or JF: everything `withF2` over `jumpIf` can do. -/
theorem jump_effect {i : Instr} {m1 m2 : Mode} (s : State) (f : Int → Bool)
    (hi : (i = .jt m1 m2 ∧ ∀ x, f x = true ↔ x ≠ 0) ∨ (i = .jf m1 m2 ∧ ∀ x, f x = true ↔ x = 0)) :
    Effect i s (withF2 i.op m1 m2 s fun a1 a2 =>
      jumpIf (f (s.mem.get a1)) (s.mem.get a2) i.op.width s) := by
  have hmodes : i.modes = [m1, m2] := by rcases hi with ⟨rfl, _⟩ | ⟨rfl, _⟩ <;> rfl
  have hw : i.op.width = 3 := by rcases hi with ⟨rfl, _⟩ | ⟨rfl, _⟩ <;> rfl
  rcases withF2_cases i.op m1 m2 s _ with ⟨a1, a2, h1, h2, he⟩ | ⟨hn, he⟩ <;> rw [he]
  · rcases jumpIf_cases (f (s.mem.get a1)) (s.mem.get a2) i.op.width s with
      ⟨hc, ht, hj⟩ | ⟨hc, ht, hj⟩ | ⟨hc, hj⟩ <;> rw [hj]
    · exact .badTarget m1 m2 a1 a2 (hi.imp (fun h => ⟨h.1, (h.2 _).1 hc⟩) fun h => ⟨h.1, (h.2 _).1 hc⟩)
        h1 h2 ht
    · exact .jump m1 m2 a1 a2 (hi.imp (fun h => ⟨h.1, (h.2 _).1 hc⟩) fun h => ⟨h.1, (h.2 _).1 hc⟩)
        h1 h2 ht
    · rw [hw]
      refine .fallThrough m1 m2 a1 a2 (hi.imp (fun h => ⟨h.1, ?_⟩) fun h => ⟨h.1, ?_⟩) h1 h2
      · by_contra hne
        simp [(h.2 _).2 hne] at hc
      · intro hz
        simp [(h.2 _).2 hz] at hc
  · rcases hn with h | h
    · exact .unresolved 0 m1 (by simp [hmodes]) h
    · exact .unresolved 1 m2 (by simp [hmodes]) h

/-- Everything one instruction can do: `exec` answers a next state, and its effect is one of `Effect`. -/
theorem exec_effect (i : Instr) (s : State) : ∃ t, exec i s = .next t ∧ Effect i s t := by
  cases i with
  | add m1 m2 m3 => exact ⟨_, rfl, arith_effect s (· + ·) (.inl ⟨rfl, fun _ _ => rfl⟩)⟩
  | mul m1 m2 m3 => exact ⟨_, rfl, arith_effect s (· * ·) (.inr ⟨rfl, fun _ _ => rfl⟩)⟩
  | lt m1 m2 m3 => exact ⟨_, rfl, compare_effect s (fun x y => decide (x < y)) (.inl rfl) fun _ _ => rfl⟩
  | eq m1 m2 m3 => exact ⟨_, rfl, compare_effect s (fun x y => decide (x = y)) (.inr rfl) fun _ _ => rfl⟩
  | jt m1 m2 => exact ⟨_, rfl, jump_effect s (fun x => x != 0) (.inl ⟨rfl, by simp⟩)⟩
  | jf m1 m2 => exact ⟨_, rfl, jump_effect s (fun x => x == 0) (.inr ⟨rfl, by simp⟩)⟩
  | inp m1 =>
    refine ⟨_, rfl, ?_⟩
    rcases withF1_cases .inp m1 s _ with ⟨a1, h1, he⟩ | ⟨hn, he⟩ <;> rw [he]
    · cases hq : s.inq with
      | nil => exact .starved m1 a1 rfl h1 hq
      | cons v rest =>
        have ha : a1 < s.mem.size := operand_lt h1
        show Effect _ s (writeBack a1 v Op.inp.width (s.setInq rest))
        rw [writeBack_of_lt (s := s.setInq rest) ha]
        exact .input m1 a1 v rest rfl h1 hq
    · exact .unresolved 0 m1 rfl hn
  | out m1 =>
    refine ⟨_, rfl, ?_⟩
    rcases withF1_cases .out m1 s _ with ⟨a1, h1, he⟩ | ⟨hn, he⟩ <;> rw [he]
    · exact .output m1 a1 rfl h1
    · exact .unresolved 0 m1 rfl hn
  | hlt => exact ⟨_, rfl, .halt rfl⟩

/-- Everything a step can do: nothing on a finished instance, a fetch or decode fault, or the effect of
the instruction it fetches (R70, R81). -/
theorem step_cases (s : State) :
    (s.status ≠ .running ∧ step s = .next s)
    ∨ (∃ k, s.status = .running ∧ fetchDecode s = .error k ∧ step s = .next (raise k s))
    ∨ (∃ i t, s.status = .running ∧ fetchDecode s = .ok i ∧ step s = exec i s
        ∧ exec i s = .next t ∧ Effect i s t) := by
  cases hs : s.status with
  | halted => exact .inl ⟨by simp, by simp [step, hs]⟩
  | faulted => exact .inl ⟨by simp, by simp [step, hs]⟩
  | running =>
    refine .inr ?_
    cases hf : fetchDecode s with
    | error k => exact .inl ⟨k, by simp, by simp, by simp [step, hs, hf]⟩
    | ok i =>
      obtain ⟨t, ht, he⟩ := exec_effect i s
      exact .inr ⟨i, t, by simp, by simp, by simp [step, hs, hf], ht, he⟩

end Sys2Proof.Machine
end

