-- ==== Sys2Proof/Laws/PerInstr.lean ====
section
/-! SUPPORT. Per-instruction families: a statement about an instruction as syntax, and one lemma per
constructor. -/

namespace Sys2Proof.Laws.Shape

/-- The shape of an instruction (R50, R52): it has as many encoded modes as its operation has operands,
its width is one cell more, and it is rebuilt from its operation and its modes alone. -/
def Statement (i : Instr) : Prop :=
  i.modes.length = i.op.operands ∧ i.op.width = 1 + i.modes.length
    ∧ instrOf i.op (i.modes.getD 0 .position) (i.modes.getD 1 .position) (i.modes.getD 2 .position) = i

theorem add (m1 m2 m3 : Mode) : Statement (.add m1 m2 m3) := ⟨rfl, rfl, rfl⟩

theorem mul (m1 m2 m3 : Mode) : Statement (.mul m1 m2 m3) := ⟨rfl, rfl, rfl⟩

theorem inp (m1 : Mode) : Statement (.inp m1) := ⟨rfl, rfl, rfl⟩

theorem out (m1 : Mode) : Statement (.out m1) := ⟨rfl, rfl, rfl⟩

theorem jt (m1 m2 : Mode) : Statement (.jt m1 m2) := ⟨rfl, rfl, rfl⟩

theorem jf (m1 m2 : Mode) : Statement (.jf m1 m2) := ⟨rfl, rfl, rfl⟩

theorem lt (m1 m2 m3 : Mode) : Statement (.lt m1 m2 m3) := ⟨rfl, rfl, rfl⟩

theorem eq (m1 m2 m3 : Mode) : Statement (.eq m1 m2 m3) := ⟨rfl, rfl, rfl⟩

theorem hlt : Statement .hlt := ⟨rfl, rfl, rfl⟩

end Sys2Proof.Laws.Shape
end

