-- ==== Sys2Proof/Laws/Safety.lean ====
section
/-! SUPPORT. `Fits` of the statements is the model's own range check. -/

namespace Sys2Proof.Safety

open Sys2Proof.Machine

/-- A value fits a configuration's cells exactly when the range check says so (R5). -/
theorem inRange_iff_fits (c : Config) (v : Int) : inRange c v = true ↔ Fits c v := by
  unfold inRange Fits
  cases c.width with
  | none => simp
  | some n => simp [minW, maxW]

/-- The negative form, as the refusals and `Overflow` use it. -/
theorem inRange_false_iff (c : Config) (v : Int) : inRange c v = false ↔ ¬ Fits c v := by
  rw [← inRange_iff_fits]
  simp

/-- The length check of LOAD is the same range check on `N + 3` (R116). -/
theorem lengthOk_iff_fits (c : Config) (n : Nat) : lengthOk c n = true ↔ Fits c ((n + 3 : Nat) : Int) := by
  unfold lengthOk Fits
  cases c.width with
  | none => simp
  | some w =>
    have : (0 : Int) ≤ 2 ^ (w - 1) := by positivity
    simp only [maxW, Nat.cast_pow, Nat.cast_ofNat, decide_eq_true_eq, Option.some.injEq, forall_eq']
    omega

end Sys2Proof.Safety
end

