-- ==== Sys2Proof/Tests/Slice0.lean ====
section
/-! SUPPORT. Tests: the well-formedness smoke tests, decoding of words written out from the spec's
encodings, single steps, transactions, and a witness for every statement that has hypotheses. Expected
values are those of spec/95_test_vectors.md (the vector's id stands in the docstring) or of the rule. -/

namespace Sys2Proof.Tests

open Sys2Proof.Machine Sys2Proof.Safety

/-- An instance just loaded with a program, with values already pushed (default configuration). -/
def img (program : List Word) (pushed : List Word := []) : State :=
  (freshState Config.default program).setInq pushed

/-- The default configuration with 18-bit cells: `MAX_W = 131071`. -/
def narrow18 : Config := { Config.default with width := some 18 }

/-- What a vector of the spec lists. -/
structure Row where
  mem : List Word
  ip : Nat
  inq : List Word
  outq : List Word
  status : Status
  fault : Option FaultKind
deriving DecidableEq, Repr

/-- The row of a step's next state. -/
def row : Host.Outcome State Fault Refusal → Option Row
  | .next t => some ⟨readAll t, t.ip, t.inq, t.outq, t.status, t.fault⟩
  | .fault _ => none
  | .refused _ => none

/-! ### Well-formedness: an ill-formed term for each check -/

/-- R5: `W = 17` is too narrow, 18 and `inf` are legal. -/
theorem test_wf_width : ({ Config.default with width := some 17 } : Config).wf = false
    ∧ narrow18.wf = true ∧ ({ Config.default with width := none } : Config).wf = true := by decide

/-- R51: an id must have two digits. -/
theorem test_wf_id_too_long : ({ Config.default with
    opmap := { Config.defaultOpmap with hlt := 100 } } : Config).wf = false := by decide

/-- R9: two operations with one id. -/
theorem test_wf_id_twice : ({ Config.default with
    opmap := { Config.defaultOpmap with eq := 7 } } : Config).wf = false := by decide

/-- R60: an instruction whose operation is not in `OPSET`. -/
theorem test_wf_instr_not_in_opset : (Instr.lt .position .position .position).wf
    { Config.default with opset := { Config.allOps with lt := false } } = false
    ∧ (Instr.lt .position .position .position).wf Config.default = true := by decide

/-! ### Decoding: words of 95_test_vectors.md 2.1, at least one per constructor -/

theorem test_decode_add : (decode Config.default 1101).toOption = some (.add .immediate .immediate .position)
    ∧ (decode Config.default 10001).toOption = some (.add .position .position .immediate) := by decide

theorem test_decode_mul : (decode Config.default 2).toOption = some (.mul .position .position .position)
    ∧ (decode Config.default 1002).toOption = some (.mul .position .immediate .position) := by decide

theorem test_decode_in : (decode Config.default 3).toOption = some (.inp .position)
    ∧ (decode Config.default 103).toOption = some (.inp .immediate) := by decide

theorem test_decode_out : (decode Config.default 4).toOption = some (.out .position)
    ∧ (decode Config.default 104).toOption = some (.out .immediate) := by decide

theorem test_decode_jt : (decode Config.default 105).toOption = some (.jt .immediate .position)
    ∧ (decode Config.default 1005).toOption = some (.jt .position .immediate) := by decide

theorem test_decode_jf : (decode Config.default 6).toOption = some (.jf .position .position)
    ∧ (decode Config.default 1106).toOption = some (.jf .immediate .immediate) := by decide

theorem test_decode_lt : (decode Config.default 7).toOption = some (.lt .position .position .position)
    ∧ (decode Config.default 1107).toOption = some (.lt .immediate .immediate .position) := by decide

theorem test_decode_eq : (decode Config.default 8).toOption = some (.eq .position .position .position)
    ∧ (decode Config.default 11108).toOption = some (.eq .immediate .immediate .immediate) := by decide

theorem test_decode_hlt : (decode Config.default 99).toOption = some .hlt := by decide

/-- R58 to R60: words that are no instruction. -/
theorem test_decode_rejects : ∀ w ∈ [(0 : Int), 9, 10, 98, 100, 201, 2001, 20001, 203, 901, 1003, 10003,
    1104, 10005, 199, 1099, 10099, 100001, 1000001, -1, -99],
    (decode Config.default w).toOption = none := by decide

/-- R51, R53: the words the encoder writes. -/
theorem test_encode : encode Config.default (.add .position .immediate .immediate) = 11001
    ∧ encode Config.default (.inp .immediate) = 103 ∧ encode Config.default (.jf .immediate .position) = 106
    ∧ encode Config.default .hlt = 99 := by decide

/-- R60, S6a: an `OPSET` without LessThan; and another `OPMAP` (R67). -/
theorem test_decode_other_tables :
    (decode { Config.default with opset := { Config.allOps with lt := false } } 7).toOption = none
    ∧ (decode { Config.default with opmap := { Config.defaultOpmap with out := 42 } } 142).toOption
        = some (.out .immediate) := by decide

/-- The host's two hooks: the first 64-bit cell is the instruction word, read as a signed integer. -/
theorem test_hooks : decodeTableWord 64 1101 = some (.add .immediate .immediate .position)
    ∧ decodeTableWord 64 (2 ^ 64 - 1) = none
    ∧ row (step (State.reset.withFetchWord 64 104)) = some ⟨[104, 0, 0, 0], 2, [], [0], .running, none⟩
    ∧ row (step (State.reset.withFetchWord 64 99)) = some ⟨[99, 0, 0, 0], 1, [], [], .halted, none⟩ := by
  decide

/-! ### Single steps -/

/-- S1. -/
theorem test_add_over_itself : row (step (img [1, 0, 0, 0, 99]))
    = some ⟨[2, 0, 0, 0, 99], 4, [], [], .running, none⟩ := by decide

/-- R92: `MAX_W + 1` with `OVF = fault`, and with `OVF = wrap` where it becomes `MIN_W`. -/
theorem test_add_overflow :
    row (step (img [1101, 9223372036854775807, 1, 0])) = some ⟨[1101, 9223372036854775807, 1, 0], 0, [], [],
      .faulted, some .overflow⟩
    ∧ row (step (freshState { Config.default with ovf := .wrap } [1101, 9223372036854775807, 1, 0]))
      = some ⟨[-9223372036854775808, 9223372036854775807, 1, 0], 4, [], [], .running, none⟩ := by decide

/-- S3. -/
theorem test_mul_squares_halt_word : row (step (img [2, 4, 4, 5, 99, 0]))
    = some ⟨[2, 4, 4, 5, 99, 9801], 4, [], [], .running, none⟩ := by decide

/-- R92, R7 at `W = 18`: -131072 times -1 is 131072, which wraps to -131072; and the fault. -/
theorem test_mul_overflow :
    row (step (freshState { narrow18 with ovf := .wrap } [1102, -131072, -1, 0]))
      = some ⟨[-131072, -131072, -1, 0], 4, [], [], .running, none⟩
    ∧ row (step (freshState narrow18 [1102, -131072, -1, 0]))
      = some ⟨[1102, -131072, -1, 0], 0, [], [], .faulted, some .overflow⟩ := by decide

/-- The worked example of R95, and its digit ignored. -/
theorem test_in_takes_front : row (step (img [103, 3, 99, 0] [7, 8]))
    = some ⟨[103, 3, 99, 7], 2, [8], [], .running, none⟩ := by decide

/-- I4, I5 and R133: an invalid destination wins over an empty queue and consumes nothing; starvation. -/
theorem test_in_faults :
    row (step (img [3, 9, 99, 0])) = some ⟨[3, 9, 99, 0], 0, [], [], .faulted, some .addressFault⟩
    ∧ row (step (img [3, 9, 99, 0] [1])) = some ⟨[3, 9, 99, 0], 0, [1], [], .faulted, some .addressFault⟩
    ∧ row (step (img [3, 3, 99, 0])) = some ⟨[3, 3, 99, 0], 0, [], [], .faulted, some .inputStarved⟩ := by
  decide

/-- O1, O2: dereferenced and literal. -/
theorem test_out_modes : row (step (img [4, 3, 99, -8])) = some ⟨[4, 3, 99, -8], 2, [], [-8], .running, none⟩
    ∧ row (step (img [104, 3, 99, -8])) = some ⟨[104, 3, 99, -8], 2, [], [3], .running, none⟩ := by decide

/-- O4, O5, O6: address `N`, a negative address, a missing operand cell. -/
theorem test_out_faults : row (step (img [4, 3, 99])) = some ⟨[4, 3, 99], 0, [], [], .faulted, some .addressFault⟩
    ∧ row (step (img [4, -1, 99])) = some ⟨[4, -1, 99], 0, [], [], .faulted, some .addressFault⟩
    ∧ row (step (img [104])) = some ⟨[104], 0, [], [], .faulted, some .addressFault⟩ := by decide

/-- J5, J16, J2: taken through memory on a negative condition; literal; fall through. -/
theorem test_jt_moves : (row (step (img [5, 7, 8, 99, 104, 7, 99, -3, 4]))).map Row.ip = some 4
    ∧ (row (step (img [1105, -1, 3, 99]))).map Row.ip = some 3
    ∧ (row (step (img [1105, 0, 4, 99, 104, 7, 99]))).map Row.ip = some 3 := by decide

/-- J8, J11, J12, J10: negative target taken and untaken, unresolvable target untaken, target `N`. -/
theorem test_jt_targets :
    row (step (img [1105, 1, -1, 99])) = some ⟨[1105, 1, -1, 99], 0, [], [], .faulted, some .addressFault⟩
    ∧ (row (step (img [1105, 0, -1, 99]))).map Row.ip = some 3
    ∧ row (step (img [105, 0, 50, 99])) = some ⟨[105, 0, 50, 99], 0, [], [], .faulted, some .addressFault⟩
    ∧ row (step (img [1105, 1, 4, 99])) = some ⟨[1105, 1, 4, 99], 4, [], [], .running, none⟩ := by decide

/-- J3, J4. -/
theorem test_jf_moves : (row (step (img [1106, 0, 4, 99, 104, 7, 99]))).map Row.ip = some 4
    ∧ (row (step (img [1106, 5, 4, 99, 104, 7, 99]))).map Row.ip = some 3 := by decide

/-- J19, J18. -/
theorem test_jf_targets :
    row (step (img [1106, 0, -1, 99])) = some ⟨[1106, 0, -1, 99], 0, [], [], .faulted, some .addressFault⟩
    ∧ (row (step (img [1106, 1, -1, 99]))).map Row.ip = some 3 := by decide

/-- C4, C2, C15: signed and strict. -/
theorem test_lt_signed : (row (step (img [1107, -5, -4, 5, 99, 7]))).map Row.mem = some [1107, -5, -4, 5, 99, 1]
    ∧ (row (step (img [1107, 2, 2, 5, 99, 7]))).map Row.mem = some [1107, 2, 2, 5, 99, 0]
    ∧ (row (step (img [1107, 0, -1, 5, 99, 7]))).map Row.mem = some [1107, 0, -1, 5, 99, 0] := by decide

/-- C11: the result over the instruction's own third operand cell. -/
theorem test_lt_over_operand : row (step (img [7, 1, 2, 3, 99]))
    = some ⟨[7, 1, 2, 1, 99], 4, [], [], .running, none⟩ := by decide

/-- C8, Q2, C10. -/
theorem test_eq : (row (step (img [8, 5, 6, 7, 99, 4, 4, 9]))).map Row.mem = some [8, 5, 6, 7, 99, 4, 4, 1]
    ∧ (row (step (img [1108, 2, -2, 5, 99, 7]))).map Row.mem = some [1108, 2, -2, 5, 99, 0]
    ∧ (row (step (img [11108, 3, 3, 5, 99, 7]))).map Row.mem = some [11108, 3, 3, 5, 99, 1] := by decide

/-- H1, and H2's cells after the Halt. -/
theorem test_hlt : row (step (img [99] [4])) = some ⟨[99], 1, [4], [], .halted, none⟩ := by decide

/-- H3 and H13: the fetch fault of an empty program; DecodeError before the resolver. -/
theorem test_fetch_and_priority :
    row (step State.reset) = some ⟨[], 0, [], [], .faulted, some .addressFault⟩
    ∧ row (step (img [201, 9, 9, 9])) = some ⟨[201, 9, 9, 9], 0, [], [], .faulted, some .decodeError⟩ := by
  decide

/-! ### Transactions -/

/-- T2, T4, T10: SEED, its refusal for `N < 3`, and the boundary check of PUSH_INPUT. -/
theorem test_seed_and_push : ((seed 4 4 (img [1, 0, 0, 0, 99])).toOption.map readAll) = some [1, 4, 4, 0, 99]
    ∧ (seed 1 1 (img [99, 0])).toOption = none
    ∧ (pushInput 131072 (freshState narrow18 [3, 0, 99])).toOption = none
    ∧ ((pushInput 131071 (freshState narrow18 [3, 0, 99])).toOption.map State.inq) = some [131071] := by
  decide

/-- T9: READ_MEM. -/
theorem test_read_mem : (readMem 1 (img [99, 5])).toOption = some 5
    ∧ (readMem 2 (img [99, 5])).toOption = none ∧ (readMem (-1) (img [99, 5])).toOption = none := by decide

/-- T7 and R121: RUN ends at the Halt; a second RUN takes no step. -/
theorem test_run : ((run 3 (img [99])).map fun p => (p.1.ip, p.2)) = some (1, .ok)
    ∧ ((run 3 ((img [99]).halt)).map fun p => (p.1.ip, p.2)) = some (0, .ok) := by decide

/-- T5: POP_OUTPUT in order, then None. -/
theorem test_pop_output : (popTimes 3 ((img []).setOutq [5, 6])).1 = [some 5, some 6, none] := by decide

/-! ### Witnesses: concrete states and operands that meet the statements' hypotheses together -/

theorem fits_of (c : Config) (v : Int) (h : inRange c v = true) : Fits c v := (inRange_iff_fits c v).1 h

theorem not_fits_of (c : Config) (v : Int) (h : inRange c v = false) : ¬ Fits c v :=
  (inRange_false_iff c v).1 h

theorem at_position {s : State} {i a : Nat}
    (h : decide (s.ip + i < s.mem.size) && decide (s.mem.get (s.ip + i) = (a : Int)) && decide (a < s.mem.size)
      = true) : OperandAt s i .position a := by
  simp only [Bool.and_eq_true, decide_eq_true_eq] at h
  exact ⟨h.1.1, h.1.2, h.2⟩

theorem at_immediate {s : State} {i : Nat} (h : s.ip + i < s.mem.size) :
    OperandAt s i .immediate (s.ip + i) := ⟨h, rfl⟩

/-- The invariants hold of a loaded program, with a value waiting in `INQ`. -/
theorem witness_coreInv : CoreInv (img [103, 0, 99] [7]) := by
  have cells : ∀ a < 3, inRange Config.default ((img [103, 0, 99] [7]).mem.get a) = true := by decide
  refine ⟨by decide, Memory.ofList_wf _, fun a ha => fits_of _ _ (cells a ha), fun v hv => ?_, fun v hv => ?_,
    fits_of _ _ (by decide), fits_of _ _ (by decide), by decide⟩
  · obtain rfl : v = 7 := by simpa [img] using hv
    exact fits_of _ _ (by decide)
  · exact absurd hv (by simp [img, freshState, State.setInq])

theorem fetches_of_decode {s : State} {i : Instr} (h : s.ip < s.mem.size)
    (hd : (decode s.cfg (s.mem.get s.ip)).toOption = some i) : Fetches s i := by
  refine ⟨h, ?_⟩
  cases he : decode s.cfg (s.mem.get s.ip) with
  | error e => rw [he] at hd; cases hd
  | ok j => rw [he] at hd; cases hd; rfl

/-- Values at both ends of the range, and a length within the limit. -/
theorem witness_LoadGivesResetState : (∀ v ∈ [(131071 : Int), -131072], Fits narrow18 v)
    ∧ Fits narrow18 ((2 + 3 : Nat) : Int) := by
  refine ⟨fun v hv => fits_of _ _ ?_, fits_of _ _ (by decide)⟩
  revert v
  decide

/-- Both clauses, each one past its limit: 131072, and a program of 131069 cells (`N + 3 = MAX_W + 1`). -/
theorem witness_LoadRefusesIllegalPrograms : (∃ v ∈ [(131072 : Int)], ¬ Fits narrow18 v)
    ∧ ¬ Fits narrow18 (((List.replicate 131069 (0 : Int)).length + 3 : Nat) : Int) := by
  refine ⟨⟨131072, by simp, not_fits_of _ _ (by decide)⟩, ?_⟩
  rw [List.length_replicate]
  exact not_fits_of _ _ (by decide)

theorem witness_EncodeThenDecode : Config.default.wf = true
    ∧ (Instr.add .immediate .position .immediate).wf Config.default = true := by decide

theorem witness_DecodeThenEncode : decode Config.default 10001 = .ok (.add .position .position .immediate) := by
  rfl

theorem witness_LegalWordsAreTheFortyFive :
    narrow18.opmap = Config.defaultOpmap ∧ narrow18.opset = Config.allOps := by decide

/-- Ids at the ends of the illegal ranges, 0, 9 and 98, and one that is legal. -/
theorem witness_UnknownOpcodeFaults :
    (∀ w ∈ [(0 : Int), 9, 98], (img [w]).status = .running ∧ (img [w]).ip < (img [w]).mem.size
      ∧ ∀ op ∈ Op.all, ((img [w]).cfg.opmap.get op : Int) ≠ (img [w]).mem.get (img [w]).ip % 100)
    ∧ Config.default.opmap.get .eq = 8 := by decide

/-- Each operand position at the boundary digit 2, and 9. -/
theorem witness_IllegalModeDigitFaults : ∀ x ∈ [((201 : Int), Op.add, 1), (2001, .add, 2), (20001, .add, 3),
    (203, .inp, 1), (2005, .jt, 2), (901, .add, 1)],
    let s := img [x.1]
    s.cfg.wf = true ∧ s.cfg.opset.get x.2.1 = true ∧ s.status = .running ∧ s.ip < s.mem.size
      ∧ 0 ≤ s.mem.get s.ip ∧ s.mem.get s.ip % 100 = (s.cfg.opmap.get x.2.1 : Int) ∧ 1 ≤ x.2.2
      ∧ x.2.2 ≤ x.2.1.operands ∧ 2 ≤ s.mem.get s.ip / 10 ^ (x.2.2 + 1) % 10 := by decide

/-- Each clause: -1, 100001, and a digit in each position beyond the operand count. -/
theorem witness_UnusedDigitsFault : (img [-1]).mem.get 0 < 0 ∧ 100000 ≤ (img [100001]).mem.get 0
    ∧ ∀ x ∈ [((199 : Int), Op.hlt, 1), (1003, .inp, 2), (10005, .jt, 3)],
      let s := img [x.1]
      s.status = .running ∧ s.ip < s.mem.size ∧ s.cfg.wf = true ∧ s.cfg.opset.get x.2.1 = true
        ∧ s.mem.get s.ip % 100 = (s.cfg.opmap.get x.2.1 : Int) ∧ x.2.1.operands < x.2.2 ∧ x.2.2 ≤ 3
        ∧ s.mem.get s.ip / 10 ^ (x.2.2 + 1) % 10 ≠ 0 := by decide

/-- `1` and `10001`, the rule's own example, and `20001`. -/
theorem witness_DestinationDigitSelectsNothing :
    ((Instr.add .position .position .position).op = (Instr.add .position .position .immediate).op
      ∧ ∀ k < 2, (Instr.add .position .position .position).modes[k]?
        = (Instr.add .position .position .immediate).modes[k]?)
    ∧ Op.add.role 3 = .destination ∧ (20001 : Int) % 100 = (Config.default.opmap.get .add : Int)
    ∧ 2 ≤ (20001 : Int) / 10 ^ (3 + 1) % 10 := by decide

/-- The last cell is written; the address after it is refused. -/
theorem witness_MemoryReadAfterWrite :
    ((img [5, 6]).mem.write 1 9).map Memory.toList = some [5, 9] ∧ (img [5, 6]).mem.write 2 9 = none
    ∧ (img [5, 6]).mem.read 1 = some 6 ∧ (img [5, 6]).mem.read (-1) = none := by decide

/-- Both directions: an operand at an address, in both modes. -/
theorem witness_ResolverRule : OperandAt (img [4, 1]) 1 .position 1 ∧ OperandAt (img [4, 9]) 1 .immediate 1
    ∧ resolve (img [4, 1]) 1 .position = some 1 :=
  ⟨at_position (by decide), at_immediate (by decide), by decide⟩

/-- An operand address equal to `N`, a negative one, a missing operand cell of an Immediate source, and a
destination whose digit says Immediate. -/
theorem witness_UnresolvableOperandFaults :
    (∀ a, ¬ OperandAt (img [4, 2]) 1 .position a) ∧ (∀ a, ¬ OperandAt (img [4, -1]) 1 .position a)
    ∧ (∀ a, ¬ OperandAt (img [104]) 1 .immediate a)
    ∧ (Instr.inp .immediate).modes[0]? = some .immediate ∧ (Instr.inp .immediate).op.role (0 + 1) = .destination
    ∧ ∀ a, ¬ OperandAt (img [103, 2]) 1 .position a := by
  have low : ∀ a : Nat, (2 : Int) = (a : Int) → ¬ a < 2 := by intro a h; omega
  refine ⟨fun a h => low a h.2.1 h.2.2, fun a h => ?_, fun a h => absurd h.1 (by decide), by decide, by decide,
    fun a h => low a h.2.1 h.2.2⟩
  have : (-1 : Int) = (a : Int) := h.2.1
  omega

/-- A Running instance that fetches OUT. -/
theorem witness_StepRunsDecodedInstruction :
    (img [104, 3, 99]).status = .running ∧ Fetches (img [104, 3, 99]) (.out .immediate) :=
  ⟨rfl, fetches_of_decode (by decide) (by decide)⟩

theorem witness_EncodedWordIsExecuted : (img [11101, 1, 2, 0]).status = .running
    ∧ (img [11101, 1, 2, 0]).cfg.wf = true
    ∧ (Instr.add .immediate .immediate .immediate).wf (img [11101, 1, 2, 0]).cfg = true
    ∧ (img [11101, 1, 2, 0]).ip < (img [11101, 1, 2, 0]).mem.size
    ∧ (img [11101, 1, 2, 0]).mem.get (img [11101, 1, 2, 0]).ip
      = encode (img [11101, 1, 2, 0]).cfg (.add .immediate .immediate .immediate) := by decide

/-- `IP = N` exactly. -/
theorem witness_FetchPastEndFaults : ((img [1105, 1, 4, 99]).setIp 4).status = .running
    ∧ ((img [1105, 1, 4, 99]).setIp 4).mem.size ≤ ((img [1105, 1, 4, 99]).setIp 4).ip := by decide

theorem witness_UndecodableWordFaults : (img [199]).status = .running ∧ (img [199]).ip < (img [199]).mem.size
    ∧ ∀ i, decode (img [199]).cfg ((img [199]).mem.get (img [199]).ip) ≠ .ok i := by
  refine ⟨rfl, by decide, fun i h => ?_⟩
  have : decode (img [199]).cfg ((img [199]).mem.get (img [199]).ip) = .error .unusedDigit := rfl
  rw [this] at h
  cases h

/-- Halted and Faulted. -/
theorem witness_FinishedInstanceTakesNoStep : (img [99]).halt.status ≠ .running
    ∧ (raise .inputStarved (img [3, 0])).status ≠ .running := by decide

/-- A Halted instance whose word at IP is an ADD, stepped twice. -/
theorem witness_FinishedStateNeverChanges : (img [1, 0, 0, 0]).halt.status ≠ .running
    ∧ ∃ t, Host.Core.run Sys2Proof.core 2 (img [1, 0, 0, 0]).halt = .next t := ⟨by decide, _, rfl⟩

/-- One faulting step for each kind of fault; AddressFault at the fetch, an operand and a jump's target. -/
theorem witness_FaultsArePrecise : ∀ x ∈ [(img [0], FaultKind.decodeError), (img [], .addressFault),
    (img [4, -1], .addressFault), (img [1105, 1, -1], .addressFault), (img [3, 0], .inputStarved),
    (img [1101, 9223372036854775807, 1, 0], .overflow)],
    x.1.status = .running ∧ row (step x.1) = row (.next (raise x.2 x.1)) := by decide

/-- The steps of witness_FaultsArePrecise, and for each clause the cause it names: an undecodable word, IN
resolved on an empty queue, a sum and a product one past `MAX_W` and below `MIN_W`, `IP = N`, an unresolvable
operand, and a taken JT and JF with target -1 in either mode of the target. -/
theorem witness_FaultCauses :
    ((img [3, 0]).status = .running ∧ step (img [3, 0]) = .next (raise .inputStarved (img [3, 0]))
      ∧ (raise .inputStarved (img [3, 0])).status = .faulted)
    ∧ (∀ i, decode (img [0]).cfg ((img [0]).mem.get (img [0]).ip) ≠ .ok i)
    ∧ ((img [3, 0]).inq = [] ∧ Fetches (img [3, 0]) (.inp .position) ∧ OperandAt (img [3, 0]) 1 .position 0)
    ∧ (Fetches (img [1101, 9223372036854775807, 1, 0]) (.add .immediate .immediate .position)
      ∧ ¬ Fits Config.default (9223372036854775807 + 1)
      ∧ Fetches (img [1102, -9223372036854775808, 2, 0]) (.mul .immediate .immediate .position)
      ∧ ¬ Fits Config.default (-9223372036854775808 * 2))
    ∧ (img []).mem.size ≤ (img []).ip
    ∧ (Fetches (img [4, 2]) (.out .position) ∧ ∀ a, ¬ OperandAt (img [4, 2]) 1 .position a)
    ∧ (Fetches (img [1105, 1, -1]) (.jt .immediate .immediate) ∧ OperandAt (img [1105, 1, -1]) 1 .immediate 1
      ∧ OperandAt (img [1105, 1, -1]) 2 .immediate 2 ∧ (img [1105, 1, -1]).mem.get 1 ≠ 0
      ∧ (img [1105, 1, -1]).mem.get 2 < 0)
    ∧ (Fetches (img [106, 0, 3, -1]) (.jf .immediate .position) ∧ OperandAt (img [106, 0, 3, -1]) 1 .immediate 1
      ∧ OperandAt (img [106, 0, 3, -1]) 2 .position 3 ∧ (img [106, 0, 3, -1]).mem.get 1 = 0
      ∧ (img [106, 0, 3, -1]).mem.get 3 < 0) := by
  have fd := @fetches_of_decode
  refine ⟨⟨rfl, rfl, rfl⟩, fun i h => ?_, ⟨rfl, fd (by decide) (by decide), at_position (by decide)⟩,
    ⟨fd (by decide) (by decide), not_fits_of _ _ (by decide), fd (by decide) (by decide),
      not_fits_of _ _ (by decide)⟩, by decide, ⟨fd (by decide) (by decide), witness_UnresolvableOperandFaults.1⟩,
    ⟨fd (by decide) (by decide), at_immediate (by decide), at_immediate (by decide), by decide, by decide⟩,
    fd (by decide) (by decide), at_immediate (by decide), at_position (by decide), by decide, by decide⟩
  have : decode (img [0]).cfg ((img [0]).mem.get (img [0]).ip) = .error .unknownOpcode := rfl
  rw [this] at h
  cases h

/-- One completing step for each clause, and the invariant that its sixth clause assumes. -/
theorem witness_AdvanceOfIp :
    (∀ x ∈ [(img [1, 0, 0, 0], Instr.add .position .position .position, 4), (img [104, 0], .out .immediate, 2),
      (img [99], .hlt, 1), (img [1105, 1, 9], .jt .immediate .immediate, 9),
      (img [1105, 0, 9], .jt .immediate .immediate, 3), (img [1106, 0, 9], .jf .immediate .immediate, 9),
      (img [1106, 1, 9], .jf .immediate .immediate, 3)],
      x.1.status = .running ∧ x.1.ip < x.1.mem.size
        ∧ (decode x.1.cfg (x.1.mem.get x.1.ip)).toOption = some x.2.1
        ∧ (row (step x.1)).map Row.ip = some x.2.2
        ∧ (row (step x.1)).map Row.status ≠ some .faulted)
    ∧ CoreInv (img [103, 0, 99] [7]) ∧ Fetches (img [103, 0, 99] [7]) (.inp .immediate) :=
  ⟨by decide, witness_coreInv, fetches_of_decode (by decide) (by decide)⟩

theorem witness_StatusTransitions : step (img [99]) = .next (advance 1 (img [99]).halt)
    ∧ (img [99]).status = .running ∧ Fetches (img [99]) .hlt
    ∧ step (img [99]).halt = .next (img [99]).halt ∧ (img [99]).halt.status ≠ .running :=
  ⟨rfl, rfl, fetches_of_decode (by decide) (by decide), rfl, by decide⟩

/-- The largest sum in range. -/
theorem witness_AddWritesSum : OperandAt (img [1101, 9223372036854775806, 1, 0]) 1 .immediate 1
    ∧ OperandAt (img [1101, 9223372036854775806, 1, 0]) 2 .immediate 2
    ∧ OperandAt (img [1101, 9223372036854775806, 1, 0]) 3 .position 0
    ∧ Fits Config.default (9223372036854775806 + 1) :=
  ⟨at_immediate (by decide), at_immediate (by decide), at_position (by decide), fits_of _ _ (by decide)⟩

/-- The least product in range. -/
theorem witness_MulWritesProduct : OperandAt (img [102, 2, 4, 0, -4611686018427387904]) 1 .immediate 1
    ∧ OperandAt (img [102, 2, 4, 0, -4611686018427387904]) 2 .position 4
    ∧ OperandAt (img [102, 2, 4, 0, -4611686018427387904]) 3 .position 0
    ∧ Fits Config.default (2 * -4611686018427387904) :=
  ⟨at_immediate (by decide), at_position (by decide), at_position (by decide), fits_of _ _ (by decide)⟩

/-- `MAX_W + 1`, and `MAX_W` times 2. -/
theorem witness_OverflowFaults : OperandAt (img [1101, 9223372036854775807, 1, 0]) 1 .immediate 1
    ∧ OperandAt (img [1101, 9223372036854775807, 1, 0]) 2 .immediate 2
    ∧ OperandAt (img [1101, 9223372036854775807, 1, 0]) 3 .position 0 ∧ Config.default.ovf = .fault
    ∧ ¬ Fits Config.default (9223372036854775807 + 1) ∧ ¬ Fits Config.default (9223372036854775807 * 2) :=
  ⟨at_immediate (by decide), at_immediate (by decide), at_position (by decide), rfl,
    not_fits_of _ _ (by decide), not_fits_of _ _ (by decide)⟩

theorem witness_OverflowWraps :
    let s := freshState { narrow18 with ovf := .wrap } [1101, 131071, 1, 0]
    OperandAt s 1 .immediate 1 ∧ OperandAt s 2 .immediate 2 ∧ OperandAt s 3 .position 0
      ∧ s.cfg.ovf = .wrap ∧ s.cfg.wf = true ∧ s.cfg.width = some 18 :=
  ⟨at_immediate (by decide), at_immediate (by decide), at_position (by decide), rfl, by decide, rfl⟩

theorem witness_InputTakesFront : OperandAt (img [103, 3, 99, 0] [7]) 1 .position 3
    ∧ (img [103, 3, 99, 0] [7]).inq = [7] := ⟨at_position (by decide), rfl⟩

theorem witness_InputStarves : OperandAt (img [3, 3, 99, 0]) 1 .position 3 ∧ (img [3, 3, 99, 0]).inq = [] :=
  ⟨at_position (by decide), rfl⟩

theorem witness_OutputAppends : OperandAt (img [4, 3, 99, -8]) 1 .position 3 := at_position (by decide)

/-- Taken with targets 0 and `N`, and not taken. -/
theorem witness_JumpIfTrueRule :
    (OperandAt (img [1105, -1, 0]) 1 .immediate 1 ∧ OperandAt (img [1105, -1, 0]) 2 .immediate 2
      ∧ (img [1105, -1, 0]).mem.get 1 ≠ 0 ∧ (img [1105, -1, 0]).mem.get 2 = ((0 : Nat) : Int))
    ∧ (img [1105, 1, 3]).mem.get 2 = (((img [1105, 1, 3]).mem.size : Nat) : Int)
    ∧ (img [1105, 0, 3]).mem.get 1 = 0 :=
  ⟨⟨at_immediate (by decide), at_immediate (by decide), by decide, by decide⟩, by decide, by decide⟩

theorem witness_JumpIfFalseRule :
    (OperandAt (img [1106, 0, 3]) 1 .immediate 1 ∧ OperandAt (img [1106, 0, 3]) 2 .immediate 2
      ∧ (img [1106, 0, 3]).mem.get 1 = 0 ∧ (img [1106, 0, 3]).mem.get 2 = ((3 : Nat) : Int))
    ∧ (img [1106, 5, 3]).mem.get 1 ≠ 0 :=
  ⟨⟨at_immediate (by decide), at_immediate (by decide), by decide, by decide⟩, by decide⟩

/-- The target -1 on a true and on a false condition. -/
theorem witness_NegativeTargetFaults : OperandAt (img [1105, 1, -1]) 1 .immediate 1
    ∧ OperandAt (img [1105, 1, -1]) 2 .immediate 2 ∧ (img [1105, 1, -1]).mem.get 2 < 0
    ∧ (img [1105, 1, -1]).mem.get 1 ≠ 0 ∧ (img [1106, 0, -1]).mem.get 1 = 0 :=
  ⟨at_immediate (by decide), at_immediate (by decide), by decide, by decide, by decide⟩

/-- A true and a false comparison. -/
theorem witness_LessThanWritesTruth : OperandAt (img [1107, -5, -4, 0]) 1 .immediate 1
    ∧ OperandAt (img [1107, -5, -4, 0]) 2 .immediate 2 ∧ OperandAt (img [1107, -5, -4, 0]) 3 .position 0
    ∧ (img [1107, -5, -4, 0]).mem.get 1 < (img [1107, -5, -4, 0]).mem.get 2
    ∧ ¬ (img [1107, 2, 2, 0]).mem.get 1 < (img [1107, 2, 2, 0]).mem.get 2 :=
  ⟨at_immediate (by decide), at_immediate (by decide), at_position (by decide), by decide, by decide⟩

theorem witness_EqualsWritesTruth : OperandAt (img [1108, 2, 2, 0]) 1 .immediate 1
    ∧ OperandAt (img [1108, 2, 2, 0]) 2 .immediate 2 ∧ OperandAt (img [1108, 2, 2, 0]) 3 .position 0
    ∧ (img [1108, 2, 2, 0]).mem.get 1 = (img [1108, 2, 2, 0]).mem.get 2
    ∧ ¬ (img [1108, 2, -2, 0]).mem.get 1 = (img [1108, 2, -2, 0]).mem.get 2 :=
  ⟨at_immediate (by decide), at_immediate (by decide), at_position (by decide), by decide, by decide⟩

/-- A step that stores, one that does not, and a destination with no address. -/
theorem witness_StoringInstructionsFrame :
    (∃ t, exec (.add .position .position .position) (img [1, 0, 0, 0]) = .next t)
    ∧ operand (img [1, 0, 0, 0]) .add 3 .position = some 0
    ∧ (∃ t, exec (.inp .position) (img [3, 9]) = .next t) ∧ operand (img [3, 9]) .inp 1 .position = none :=
  ⟨⟨_, rfl⟩, by decide, ⟨_, rfl⟩, by decide⟩

/-- An ADD that writes the last cell, an IN that writes its own word, and a step that changes memory. -/
theorem witness_DestinationWriteIsTheOnlyWrite :
    ((Instr.add .immediate .immediate .position).modes[2]? = some .position
      ∧ Op.add.role (2 + 1) = .destination
      ∧ ∃ t, exec (.add .immediate .immediate .position) (img [1101, 1, 3, 3]) = .next t
        ∧ t.status ≠ .faulted ∧ t.mem ≠ (img [1101, 1, 3, 3]).mem)
    ∧ operand (img [1101, 1, 3, 3]) .add 3 .immediate = some 3
    ∧ operand (img [3, 0] [7]) .inp 1 .position = some 0
    ∧ ∃ t, step (img [3, 0] [7]) = .next t ∧ t.mem ≠ (img [3, 0] [7]).mem :=
  ⟨⟨rfl, rfl, _, rfl, by decide, by decide⟩, by decide, by decide, _, rfl, by decide⟩

theorem witness_NonStoringInstructionsFrame : (∃ t, exec (.out .immediate) (img [104, 1]) = .next t)
    ∧ (∃ t, exec (.jt .immediate .immediate) (img [1105, 1, -1]) = .next t)
    ∧ ∃ t, exec .hlt (img [99]) = .next t := ⟨⟨_, rfl⟩, ⟨_, rfl⟩, ⟨_, rfl⟩⟩

theorem witness_StepKeepsInvariant : CoreInv (img [103, 0, 99] [7])
    ∧ ∃ t, step (img [103, 0, 99] [7]) = .next t := ⟨witness_coreInv, ⟨_, rfl⟩⟩

theorem witness_QueuesAreFifo : ∃ t, Host.Core.run Sys2Proof.core 2 (img [3, 0, 104, 5] [42]) = .next t :=
  ⟨_, rfl⟩

theorem witness_OutputsCannotBeRead : ∃ t, step (img [104, 5]) = .next t ∧ t.outq = [5] := ⟨_, rfl, rfl⟩

theorem witness_LaterInputsChangeNothing :
    ∃ t, step (img [3, 0] [42]) = .next t ∧ t.fault ≠ some .inputStarved := ⟨_, rfl, by decide⟩

/-- The source's fourth fixture (`1 + 1` over the Halt at address 4 decodes as MUL), and MUL, LT, EQ and IN
storing over the word after them. -/
theorem witness_StoreSeenByNextFetch :
    (let s := img [1, 1, 1, 4, 99, 5, 6, 0, 99];
      s.status = .running ∧ OperandAt s 1 .position 1 ∧ OperandAt s 2 .position 1
        ∧ OperandAt s 3 .position (s.ip + 4) ∧ Fits s.cfg (s.mem.get 1 + s.mem.get 1)
        ∧ decode s.cfg (s.mem.get 1 + s.mem.get 1) = .ok (.mul .position .position .position))
    ∧ (∀ x ∈ [((1102 : Int), (2 : Int)), (1107, 1), (1108, 0)], let s := img [x.1, 1, 2, 4, 99];
      (decode s.cfg (s.mem.get 0)).toOption.map Instr.op ∈ [some Op.mul, some .lt, some .eq]
        ∧ resolve s 3 .position = some (s.ip + 4) ∧ (row (step s)).map Row.mem = some [x.1, 1, 2, 4, x.2])
    ∧ decode Config.default 2 = .ok (.mul .position .position .position)
    ∧ decode Config.default 1 = .ok (.add .position .position .position)
    ∧ OperandAt (img [3, 2, 0] [99]) 1 .position ((img [3, 2, 0] [99]).ip + 2)
    ∧ (img [3, 2, 0] [99]).inq = [99] ∧ decode Config.default 99 = .ok .hlt :=
  ⟨⟨rfl, at_position (by decide), at_position (by decide), at_position (by decide), fits_of _ _ (by decide), rfl⟩,
    by decide, rfl, rfl, at_position (by decide), rfl, rfl⟩

/-- The first clause of StoreSeenByNextFetch with `OVF = wrap`: -131072 - 131071 wraps to 1 at `W = 18`. -/
theorem witness_StoreSeenByNextFetch_wrap :
    let s := freshState { narrow18 with ovf := .wrap } [1101, -131072, -131071, 4, 99]
    s.status = .running ∧ (Instr.add .immediate .immediate .position).modes[2]? = some .position
      ∧ Op.add.role (2 + 1) = .destination ∧ OperandAt s 3 .position (s.ip + Op.add.width)
      ∧ ∃ t, exec (.add .immediate .immediate .position) s = .next t ∧ t.status ≠ .faulted
        ∧ decode s.cfg (t.mem.get (s.ip + Op.add.width)) = .ok (.add .position .position .position) :=
  ⟨rfl, rfl, rfl, at_position (by decide), _, rfl, by decide, rfl⟩

/-- `N = 3` exactly. -/
theorem witness_SeedWritesCellsOneAndTwo : (img [1, 0, 0]).status = .running ∧ 3 ≤ (img [1, 0, 0]).mem.size
    ∧ Fits (img [1, 0, 0]).cfg 12 ∧ Fits (img [1, 0, 0]).cfg 2 :=
  ⟨rfl, by decide, fits_of _ _ (by decide), fits_of _ _ (by decide)⟩

/-- Each clause: after RUN, `N = 2`, and a value one above `MAX_W`. -/
theorem witness_SeedRefusals : (img [99, 0, 0]).halt.status ≠ .running ∧ (img [99, 0]).mem.size < 3
    ∧ ¬ Fits narrow18 131072 := ⟨by decide, by decide, not_fits_of _ _ (by decide)⟩

/-- `MAX_W` and `MAX_W + 1`. -/
theorem witness_PushInputAppends : Fits narrow18 131071 ∧ ¬ Fits narrow18 131072 :=
  ⟨fits_of _ _ (by decide), not_fits_of _ _ (by decide)⟩

/-- The last valid address, and the two ends of the refused ones. -/
theorem witness_ReadMemRule : 1 < (img [99, 5]).mem.size ∧ (-1 : Int) < 0
    ∧ ((img [99, 5]).mem.size : Int) ≤ 2 := by decide

/-- A run that ends Halted, one that ends Faulted, and an instance that has already ended. -/
theorem witness_RunReturnsTheOutcome : (∃ t, run 1 (img [99]) = some (t, .ok))
    ∧ (∃ t, run 1 (img [3, 0, 99]) = some (t, .err .inputStarved))
    ∧ ∃ t, Host.Core.run Sys2Proof.core 1 (img [99]) = .next t ∧ t.status = .halted :=
  ⟨⟨_, rfl⟩, ⟨_, rfl⟩, ⟨_, rfl, rfl⟩⟩

theorem witness_RunOnFinishedInstance : (img [99]).halt.status = .halted
    ∧ (raise .inputStarved (img [3, 0])).status = .faulted
    ∧ (raise .inputStarved (img [3, 0])).fault = some .inputStarved
    ∧ ∃ t, pushInput 7 (raise .inputStarved (img [3, 0])) = .ok t := ⟨rfl, rfl, rfl, ⟨_, rfl⟩⟩

theorem witness_TransactionsKeepInvariant : (∃ s, Config.default.wf = true ∧ load Config.default [99] = .ok s)
    ∧ CoreInv (img [103, 0, 99] [7]) ∧ (∃ t, seed 1 2 (img [103, 0, 99] [7]) = .ok t)
    ∧ (∃ t, pushInput 7 (img [103, 0, 99] [7]) = .ok t)
    ∧ ∃ t, run 2 (img [103, 0, 99] [7]) = some t :=
  ⟨⟨_, by decide, rfl⟩, witness_coreInv, ⟨_, rfl⟩, ⟨_, rfl⟩, ⟨_, rfl⟩⟩

/-- A transaction on instance 0 of two, and a LOAD. -/
theorem witness_InstancesAreIndependent :
    (∃ rack' r, hostAct 0 0 (.pushInput 7) [some (img [99]), some (img [0])] = .done rack' r)
    ∧ ∃ rack' r, hostAct 0 0 (.load Config.default [99]) [some (img [99])] = .done rack' r :=
  ⟨⟨_, _, rfl⟩, ⟨_, _, rfl⟩⟩

/-- A live instance on which each transaction is done, and one on which SEED, PUSH_INPUT, READ_MEM are refused
and RUN is cut off; a LOAD that is accepted. -/
theorem witness_TransactionsActOnTheirInstance :
    ([some (img [103, 0, 99] [7])] : Rack)[0]? = some (some (img [103, 0, 99] [7]))
    ∧ (∃ t, seed 1 2 (img [103, 0, 99] [7]) = .ok t) ∧ (∃ t, pushInput 7 (img [103, 0, 99] [7]) = .ok t)
    ∧ (∃ t r, run 2 (img [103, 0, 99] [7]) = some (t, r)) ∧ 2 < (img [103, 0, 99] [7]).mem.size
    ∧ seed 1 1 (img [99, 0]) = .error .seedShortMemory
    ∧ pushInput 131072 (freshState narrow18 []) = .error .valueOutOfRange
    ∧ run 0 (img [99]) = none ∧ ((img [99, 5]).mem.size : Int) ≤ 2 ∧ ∃ u, load Config.default [99] = .ok u :=
  ⟨rfl, ⟨_, rfl⟩, ⟨_, rfl⟩, ⟨_, _, rfl⟩, by decide, rfl, rfl, rfl, by decide, ⟨_, rfl⟩⟩

/-- A Halted and a Faulted instance and an empty place, and a transaction that is done on each live one. -/
theorem witness_InstanceIsNeverRearmed :
    let rack : Rack := [some (img [99]).halt, some (raise .inputStarved (img [3, 0])), none]
    rack[0]? = some (some (img [99]).halt) ∧ (img [99]).halt.status ≠ .running
      ∧ (raise .inputStarved (img [3, 0])).status ≠ .running ∧ rack[2]? = some none
      ∧ (∃ rack' r, hostAct 1 0 .run rack = .done rack' r)
      ∧ (∃ rack' r, hostAct 1 1 (.pushInput 7) rack = .done rack' r)
      ∧ ∃ rack' r, hostAct 1 1 .drop rack = .done rack' r :=
  ⟨rfl, by decide, by decide, rfl, ⟨_, _, rfl⟩, ⟨_, _, rfl⟩, ⟨_, _, rfl⟩⟩

/-- Two outputs that fit the other instance's 18-bit cells. -/
theorem witness_RelayKeepsOrder : ∀ v ∈ ((img []).setOutq [131071, -131072]).outq,
    Fits (freshState narrow18 []).cfg v := by
  intro v hv
  refine fits_of _ _ ?_
  revert v
  decide

end Sys2Proof.Tests
end

section
/-! SUPPORT. `Effect` (Laws/Exec.lean) is exactly the graph of `exec`, and what a step leads to, stated for a
given next state. -/

namespace Sys2Proof.Machine

open Sys2Proof.Safety

/-! ### The formats on operands that all resolve, or that do not -/

theorem withF1_of_some {op : Op} {m1 : Mode} {s : State} {a1 : Nat} (h1 : operand s op 1 m1 = some a1)
    (k : Nat → State) : withF1 op m1 s k = k a1 := by
  simp [withF1, h1]

theorem withF2_of_some {op : Op} {m1 m2 : Mode} {s : State} {a1 a2 : Nat}
    (h1 : operand s op 1 m1 = some a1) (h2 : operand s op 2 m2 = some a2) (k : Nat → Nat → State) :
    withF2 op m1 m2 s k = k a1 a2 := by
  simp [withF2, h1, h2]

theorem withF3_of_some {op : Op} {m1 m2 m3 : Mode} {s : State} {a1 a2 a3 : Nat}
    (h1 : operand s op 1 m1 = some a1) (h2 : operand s op 2 m2 = some a2)
    (h3 : operand s op 3 m3 = some a3) (k : Nat → Nat → Nat → State) :
    withF3 op m1 m2 m3 s k = k a1 a2 a3 := by
  simp [withF3, h1, h2, h3]

theorem withF1_of_unresolved {op : Op} {m1 : Mode} {s : State} {j : Nat} {m : Mode}
    (hm : [m1][j]? = some m) (hn : operand s op (j + 1) m = none) (k : Nat → State) :
    withF1 op m1 s k = raise .addressFault s := by
  rcases withF1_cases op m1 s k with ⟨a1, h1, _⟩ | ⟨_, he⟩
  · obtain rfl : j = 0 := by simpa using (List.getElem?_eq_some_iff.1 hm).1
    simp_all
  · exact he

theorem withF2_of_unresolved {op : Op} {m1 m2 : Mode} {s : State} {j : Nat} {m : Mode}
    (hm : [m1, m2][j]? = some m) (hn : operand s op (j + 1) m = none) (k : Nat → Nat → State) :
    withF2 op m1 m2 s k = raise .addressFault s := by
  rcases withF2_cases op m1 m2 s k with ⟨a1, a2, h1, h2, _⟩ | ⟨_, he⟩
  · have hj : j < 2 := (List.getElem?_eq_some_iff.1 hm).1
    interval_cases j <;> simp_all
  · exact he

theorem withF3_of_unresolved {op : Op} {m1 m2 m3 : Mode} {s : State} {j : Nat} {m : Mode}
    (hm : [m1, m2, m3][j]? = some m) (hn : operand s op (j + 1) m = none) (k : Nat → Nat → Nat → State) :
    withF3 op m1 m2 m3 s k = raise .addressFault s := by
  rcases withF3_cases op m1 m2 m3 s k with ⟨a1, a2, a3, h1, h2, h3, _⟩ | ⟨_, he⟩
  · have hj : j < 3 := (List.getElem?_eq_some_iff.1 hm).1
    interval_cases j <;> simp_all
  · exact he

/-! ### From an effect back to the instruction's meaning -/

/-- D6, D7: one operand that does not resolve is enough for AddressFault. -/
theorem exec_of_unresolved {i : Instr} {s : State} {k : Nat} {m : Mode} (hm : i.modes[k]? = some m)
    (hn : operand s i.op (k + 1) m = none) : exec i s = .next (raise .addressFault s) := by
  cases i with
  | add m1 m2 m3 => exact congrArg Host.Outcome.next (withF3_of_unresolved hm hn _)
  | mul m1 m2 m3 => exact congrArg Host.Outcome.next (withF3_of_unresolved hm hn _)
  | lt m1 m2 m3 => exact congrArg Host.Outcome.next (withF3_of_unresolved hm hn _)
  | eq m1 m2 m3 => exact congrArg Host.Outcome.next (withF3_of_unresolved hm hn _)
  | jt m1 m2 => exact congrArg Host.Outcome.next (withF2_of_unresolved hm hn _)
  | jf m1 m2 => exact congrArg Host.Outcome.next (withF2_of_unresolved hm hn _)
  | inp m1 => exact congrArg Host.Outcome.next (withF1_of_unresolved hm hn _)
  | out m1 => exact congrArg Host.Outcome.next (withF1_of_unresolved hm hn _)
  | hlt => cases hm

/-- The tail of ADD and MUL by whether `narrow` answers a value. -/
theorem writeArith_eq_elim (op : Op) (r : Int) (a : Nat) (s : State) :
    writeArith op r a s
      = (narrow s.cfg r).elim (raise .overflow s) fun v => writeBack a v op.width s := by
  unfold writeArith
  cases narrow s.cfg r <;> rfl

/-- The four instructions of format F3 in one form: store `storedValue`, or raise Overflow without one. -/
theorem exec_of_isF3 {i : Instr} {m1 m2 m3 : Mode} (hi : IsF3 i m1 m2 m3) (s : State) :
    exec i s = .next (withF3 i.op m1 m2 m3 s fun a1 a2 a3 =>
      (storedValue s.cfg i.op (s.mem.get a1) (s.mem.get a2)).elim (raise .overflow s)
        fun v => writeBack a3 v 4 s) := by
  rcases hi with rfl | rfl | rfl | rfl
  · simp only [exec, execAdd, writeArith_eq_elim]; rfl
  · simp only [exec, execMul, writeArith_eq_elim]; rfl
  · rfl
  · rfl

/-- The two jumps in one form. -/
theorem exec_of_jump {i : Instr} {m1 m2 : Mode} {s : State} {a1 a2 : Nat} {taken : Bool}
    (hi : (i = .jt m1 m2 ∧ taken = (s.mem.get a1 != 0)) ∨ (i = .jf m1 m2 ∧ taken = (s.mem.get a1 == 0)))
    (h1 : operand s i.op 1 m1 = some a1) (h2 : operand s i.op 2 m2 = some a2) :
    exec i s = .next (jumpIf taken (s.mem.get a2) 3 s) := by
  rcases hi with ⟨rfl, rfl⟩ | ⟨rfl, rfl⟩ <;>
    exact congrArg Host.Outcome.next (withF2_of_some h1 h2 _)

/-- `narrow` answers nothing exactly where Overflow is raised (R92). -/
theorem narrow_of_overflow {c : Config} {r : Int} (ho : c.ovf = .fault) (hr : inRange c r = false) :
    narrow c r = none := by
  simp [narrow, ho, hr]

/-- Every effect is what `exec` answers: the converse of `exec_effect`. -/
theorem exec_of_effect {i : Instr} {s t : State} (he : Effect i s t) : exec i s = .next t := by
  cases he with
  | unresolved k m hm hn => exact exec_of_unresolved hm hn
  | overflow m1 m2 m3 a1 a2 a3 r hi h1 h2 h3 ho hr =>
    have hF3 : IsF3 i m1 m2 m3 := hi.elim (fun h => .inl h.1) fun h => .inr (.inl h.1)
    have hv : storedValue s.cfg i.op (s.mem.get a1) (s.mem.get a2) = none := by
      rcases hi with ⟨rfl, rfl⟩ | ⟨rfl, rfl⟩ <;> exact narrow_of_overflow ho hr
    rw [exec_of_isF3 hF3, withF3_of_some h1 h2 h3, hv, Option.elim_none]
  | store m1 m2 m3 a1 a2 a3 v hi h1 h2 h3 hv =>
    rw [exec_of_isF3 hi, withF3_of_some h1 h2 h3, hv, Option.elim_some, writeBack_of_lt (operand_lt h3)]
  | starved m a hi hd hq =>
    subst hi
    simp [exec, execInp, withF1_of_some hd, hq]
  | input m a v rest hi hd hq =>
    subst hi
    have ha : a < (s.setInq rest).mem.size := operand_lt (s := s) hd
    simp [exec, execInp, withF1_of_some hd, hq, writeBack_of_lt ha, Op.width, Op.operands]
  | output m a hi hs =>
    subst hi
    exact congrArg Host.Outcome.next (withF1_of_some hs _)
  | badTarget m1 m2 a1 a2 hi h1 h2 ht =>
    rw [exec_of_jump (taken := true) (by simpa using hi) h1 h2]
    simp [jumpIf, ht]
  | jump m1 m2 a1 a2 hi h1 h2 ht =>
    rw [exec_of_jump (taken := true) (by simpa using hi) h1 h2]
    simp [jumpIf, Int.not_lt.2 ht]
  | fallThrough m1 m2 a1 a2 hi h1 h2 =>
    rw [exec_of_jump (taken := false) (by simpa using hi) h1 h2]
    simp [jumpIf]
  | halt hi => subst hi; rfl

/-- The effects of an instruction are exactly what its meaning answers. -/
theorem exec_next_iff {i : Instr} {s t : State} : exec i s = .next t ↔ Effect i s t := by
  refine ⟨fun h => ?_, exec_of_effect⟩
  obtain ⟨t', ht', he⟩ := exec_effect i s
  cases h.symm.trans ht'
  exact he

/-! ### The step -/

/-- `Fetches` of the statements is what fetch and decode answer (R71, R72). -/
theorem fetches_iff {s : State} {i : Instr} : Fetches s i ↔ fetchDecode s = .ok i := by
  unfold Fetches
  rcases fetchDecode_cases s with ⟨hlt, hf⟩ | ⟨_, ⟨why, hd⟩, hf⟩ | ⟨j, hlt, hd, hf⟩
  · simp [hf, Nat.not_lt.2 hlt]
  · simp [hf, hd]
  · simp [hf, hd, hlt]

/-- Everything that can stand between a state and the one its step answers (R70, R81). -/
theorem step_next_cases {s t : State} (h : step s = .next t) :
    (s.status ≠ .running ∧ t = s)
    ∨ (∃ k, s.status = .running ∧ fetchDecode s = .error k ∧ t = raise k s)
    ∨ (∃ i, s.status = .running ∧ Fetches s i ∧ Effect i s t) := by
  rcases step_cases s with ⟨hs, he⟩ | ⟨k, hs, hf, he⟩ | ⟨i, t', hs, hf, he, ht, heff⟩
  · cases h.symm.trans he
    exact .inl ⟨hs, rfl⟩
  · cases h.symm.trans he
    exact .inr (.inl ⟨k, hs, hf, rfl⟩)
  · cases h.symm.trans (he.trans ht)
    exact .inr (.inr ⟨i, hs, fetches_iff.2 hf, heff⟩)

/-- R81: a finished instance is answered unchanged (log 11). -/
theorem step_of_finished {s : State} (h : s.status ≠ .running) : step s = .next s := by
  rcases step_cases s with ⟨_, he⟩ | ⟨k, hs, _⟩ | ⟨i, t, hs, _⟩
  · exact he
  · exact absurd hs h
  · exact absurd hs h

theorem step_of_fetch_error {s : State} {k : FaultKind} (hs : s.status = .running)
    (hf : fetchDecode s = .error k) : step s = .next (raise k s) := by
  simp [step, hs, hf]

theorem step_of_fetches {s : State} {i : Instr} (hs : s.status = .running) (hf : Fetches s i) :
    step s = exec i s := by
  simp [step, hs, fetches_iff.1 hf]

/-- R148: no step is stuck, faults the host or is refused. -/
theorem step_total (s : State) : ∃ t, step s = .next t := by
  rcases step_cases s with ⟨_, he⟩ | ⟨k, _, _, he⟩ | ⟨i, t, _, _, he, ht, _⟩
  · exact ⟨_, he⟩
  · exact ⟨_, he⟩
  · exact ⟨_, he.trans ht⟩

/-! ### Any number of steps -/

theorem coreRun_succ {s u : State} (h : step s = .next u) (k : Nat) :
    Host.Core.run Sys2Proof.core (k + 1) s = Host.Core.run Sys2Proof.core k u := by
  simp [Host.Core.run, Sys2Proof.core, h]

/-- What holds of each single step, and composes, holds of any number of steps. -/
theorem coreRun_induction {R : State → State → Prop} (refl : ∀ s, R s s)
    (trans : ∀ {s t u}, R s t → R t u → R s u) (hstep : ∀ {s t}, step s = .next t → R s t)
    (k : Nat) {s t : State} (h : Host.Core.run Sys2Proof.core k s = .next t) : R s t := by
  induction k generalizing s with
  | zero => cases h; exact refl _
  | succ k ih =>
    obtain ⟨u, hu⟩ := step_total s
    rw [coreRun_succ hu] at h
    exact trans (hstep hu) (ih h)

/-- The loop of RUN takes steps of the core and nothing else (R82). -/
theorem coreRun_of_runLoop {fuel : Nat} {s t : State} (h : runLoop fuel s = some t) :
    ∃ n ≤ fuel, Host.Core.run Sys2Proof.core n s = .next t := by
  induction fuel generalizing s with
  | zero =>
    simp only [runLoop] at h
    split at h <;> cases h
    exact ⟨0, Nat.le_refl 0, rfl⟩
  | succ fuel ih =>
    simp only [runLoop] at h
    split at h
    · obtain ⟨u, hu⟩ := step_total s
      rw [hu] at h
      obtain ⟨n, hn, hrun⟩ := ih h
      exact ⟨n + 1, by omega, (coreRun_succ hu n).trans hrun⟩
    · cases h
      exact ⟨0, by omega, rfl⟩

end Sys2Proof.Machine
end

section
/-! SUPPORT. Which values fit a cell, and the invariants under each named operation of the state. -/

namespace Sys2Proof.Safety

open Sys2Proof.Machine

/-! ### Values that fit -/

/-- The range of a cell contains 0, and so every natural number below one that fits. -/
theorem Fits.of_le {c : Config} {a b : Nat} (h : Fits c (b : Int)) (hab : a ≤ b) : Fits c (a : Int) := by
  intro n hn
  obtain ⟨_, hb⟩ := h n hn
  have hpos : (0 : Int) ≤ 2 ^ (n - 1) := by positivity
  omega

/-- `W >= 18` in a legal configuration (R5). -/
theorem width_ge {c : Config} (h : c.wf = true) {n : Nat} (hn : c.width = some n) : 18 ≤ n := by
  obtain ⟨hw, _, _⟩ := (Config.wf_iff c).1 h
  simpa [Config.widthOk, hn] using hw

/-- What a comparison writes fits (R107). -/
theorem fits_truth {c : Config} (h : c.wf = true) (b : Bool) : Fits c (truth b) := by
  have hone : Fits c ((1 : Nat) : Int) := by
    intro n hn
    have hn18 := width_ge h hn
    have hpow : (2 : Int) ^ 17 ≤ 2 ^ (n - 1) := pow_le_pow_right₀ (by decide) (by omega)
    omega
  rcases truth_cases b with hb | hb <;> rw [hb]
  · exact hone.of_le (Nat.zero_le 1)
  · exact hone

/-- What ADD or MUL writes fits, with either `OVF` (R92). -/
theorem fits_narrow {c : Config} (h : c.wf = true) {r v : Int} (hv : narrow c r = some v) : Fits c v := by
  rcases narrow_cases c r with ⟨hr, hn⟩ | ⟨_, _, hn⟩ | ⟨n, hw, _, _, hn⟩ <;> cases hv.symm.trans hn
  · exact (inRange_iff_fits c r).1 hr
  · intro m hm
    cases hw.symm.trans hm
    have hn18 := width_ge h hw
    simpa [minW, maxW] using wrapW_bounds n (by omega) r

theorem fits_storedValue {c : Config} (h : c.wf = true) {op : Op} {x y v : Int}
    (hv : storedValue c op x y = some v) : Fits c v := by
  cases op with
  | add => exact fits_narrow h hv
  | mul => exact fits_narrow h hv
  | lt => cases hv; exact fits_truth h _
  | eq => cases hv; exact fits_truth h _
  | inp => cases hv
  | out => cases hv
  | jt => cases hv
  | jf => cases hv
  | hlt => cases hv

/-! ### The invariants under each named operation -/

/-- (I-f) in a Running state. -/
theorem CoreInv.fault_eq_none {s : State} (h : CoreInv s) (hs : s.status ≠ .faulted) : s.fault = none :=
  not_not.1 fun hf => hs (h.fault.1 hf)

theorem CoreInv.put {s : State} (h : CoreInv s) {a : Nat} {v : Int} (ha : a < s.mem.size)
    (hv : Fits s.cfg v) : CoreInv (s.setMem (s.mem.put a v)) :=
  { h with
    mem := Memory.put_wf h.mem ha v
    cells := fun b hb => by
      simp only [State.setMem_mem, State.setMem_cfg, Memory.get_put]
      split
      · exact hv
      · exact h.cells b hb }

theorem CoreInv.setIp {s : State} (h : CoreInv s) {a : Nat} (ha : Fits s.cfg (a : Int)) :
    CoreInv (s.setIp a) :=
  { h with ip := ha }

theorem CoreInv.setInq {s : State} (h : CoreInv s) {q : List Word} (hq : ∀ v ∈ q, Fits s.cfg v) :
    CoreInv (s.setInq q) :=
  { h with inq := hq }

theorem CoreInv.setOutq {s : State} (h : CoreInv s) {q : List Word} (hq : ∀ v ∈ q, Fits s.cfg v) :
    CoreInv (s.setOutq q) :=
  { h with outq := hq }

theorem CoreInv.pushOut {s : State} (h : CoreInv s) {v : Int} (hv : Fits s.cfg v) :
    CoreInv (pushOut v s) :=
  h.setOutq (by simpa [or_imp, forall_and, hv] using h.outq)

theorem CoreInv.raise {s : State} (h : CoreInv s) (k : FaultKind) : CoreInv (raise k s) :=
  { h with fault := by simp }

theorem CoreInv.halt {s : State} (h : CoreInv s) (hs : s.status ≠ .faulted) : CoreInv s.halt :=
  { h with fault := by simp [h.fault_eq_none hs] }

/-- D27, D29: `N + 3 <= MAX_W` leaves room for an advance past the last instruction. -/
theorem CoreInv.advance {s : State} (h : CoreInv s) {w : Nat} (hw : s.ip + w ≤ s.mem.size + 3) :
    CoreInv (advance w s) :=
  h.setIp (h.size.of_le hw)

/-! ### One step -/

/-- An operand that resolves has its operand cell inside memory (R75). -/
theorem operand_cell_lt {s : State} {op : Op} {i : Nat} {m : Mode} {a : Nat}
    (h : operand s op i m = some a) : s.ip + i < s.mem.size := by
  unfold operand at h
  rcases resolve_cases s i (effMode (op.role i) m) with ⟨_, hr⟩ | ⟨hc, _⟩ | ⟨hc, _⟩ | ⟨hc, _⟩
  · cases h.symm.trans hr
  · exact hc
  · exact hc
  · exact hc

/-- The value of a resolved source fits. -/
theorem CoreInv.operand_value {s : State} (h : CoreInv s) {op : Op} {i : Nat} {m : Mode} {a : Nat}
    (ha : operand s op i m = some a) : Fits s.cfg (s.mem.get a) :=
  h.cells a (operand_lt ha)

/-- R25: an instruction of a Running instance, fetched below `N`, keeps the invariants. -/
theorem CoreInv.effect {i : Instr} {s t : State} (h : CoreInv s) (hs : s.status = .running)
    (hip : s.ip < s.mem.size) (he : Effect i s t) : CoreInv t := by
  cases he with
  | unresolved k m hm hn => exact h.raise _
  | overflow m1 m2 m3 a1 a2 a3 r hi h1 h2 h3 ho hr => exact h.raise _
  | store m1 m2 m3 a1 a2 a3 v hi h1 h2 h3 hv =>
    have hcell := operand_cell_lt h3
    refine (h.put (operand_lt h3) (fits_storedValue h.cfg hv)).advance ?_
    simp only [State.setMem_ip, State.setMem_mem, Memory.put_size]
    omega
  | starved m a hi hd hq => exact h.raise _
  | input m a v rest hi hd hq =>
    have hcell := operand_cell_lt hd
    obtain ⟨hv, hrest⟩ : Fits s.cfg v ∧ ∀ x ∈ rest, Fits s.cfg x := by
      simpa [hq] using h.inq
    refine (CoreInv.put (h.setInq hrest) (operand_lt (s := s) hd) hv).advance ?_
    simp only [State.setMem_ip, State.setInq_ip, State.setMem_mem, State.setInq_mem, Memory.put_size]
    omega
  | output m a hi ha =>
    have hcell := operand_cell_lt ha
    refine (h.pushOut (h.operand_value ha)).advance ?_
    simp only [pushOut_ip, pushOut_mem]
    omega
  | badTarget m1 m2 a1 a2 hi h1 h2 ht => exact h.raise _
  | jump m1 m2 a1 a2 hi h1 h2 ht =>
    refine h.setIp ?_
    rw [Int.toNat_of_nonneg ht]
    exact h.operand_value h2
  | fallThrough m1 m2 a1 a2 hi h1 h2 => exact h.advance (by omega)
  | halt hi =>
    refine (h.halt (by simp [hs])).advance ?_
    simp only [State.halt_ip, State.halt_mem]
    omega

/-- R25: every step keeps the invariants. -/
theorem CoreInv.step {s t : State} (h : CoreInv s) (hst : step s = .next t) : CoreInv t := by
  rcases step_next_cases hst with ⟨_, rfl⟩ | ⟨k, _, _, rfl⟩ | ⟨i, hs, ⟨hip, _⟩, he⟩
  · exact h
  · exact h.raise k
  · exact h.effect hs hip he

/-! ### The host transactions -/

/-- What LOAD accepts, and what it then answers (R116, R124). -/
theorem load_ok_iff {c : Config} {program : List Word} {s : State} :
    load c program = .ok s ↔
      (∀ v ∈ program, Fits c v) ∧ Fits c ((program.length + 3 : Nat) : Int) ∧ s = freshState c program := by
  have hall : program.all (inRange c) = true ↔ ∀ v ∈ program, Fits c v := by
    simp only [List.all_eq_true, inRange_iff_fits]
  rw [← hall, ← lengthOk_iff_fits]
  cases h1 : program.all (inRange c) <;> cases h2 : lengthOk c program.length <;>
    simp [load, h1, h2, eq_comm]

theorem freshState_get (c : Config) (program : List Word) {a : Nat} (h : a < program.length) :
    (freshState c program).mem.get a = program[a] := by
  simp [freshState, Memory.get_ofList, h]

/-- R24: LOAD under a legal configuration establishes the invariants. -/
theorem coreInv_of_load {c : Config} {program : List Word} {s : State} (hc : c.wf = true)
    (hl : load c program = .ok s) : CoreInv s := by
  obtain ⟨hv, hlen, rfl⟩ := load_ok_iff.1 hl
  exact
    { cfg := hc
      mem := Memory.ofList_wf program
      cells := fun a ha => by
        rw [freshState_get c program ha]
        exact hv _ (List.getElem_mem ha)
      inq := fun v hv => by cases hv
      outq := fun v hv => by cases hv
      ip := hlen.of_le (Nat.zero_le _)
      size := hlen
      fault := by simp [freshState] }

theorem CoreInv.write {s : State} (h : CoreInv s) {a v : Int} {m : Memory} (hv : Fits s.cfg v)
    (hw : s.mem.write a v = some m) : CoreInv (s.setMem m) := by
  unfold Memory.write at hw
  split at hw
  · rename_i hvalid
    obtain ⟨h0, h1⟩ := (s.mem.valid_iff a).1 hvalid
    cases hw
    exact h.put (by omega) hv
  · cases hw

/-- What SEED has done where it is not refused: two writes of values that fit (R118). -/
theorem seed_ok {noun verb : Int} {s t : State} (h : seed noun verb s = .ok t) :
    s.status = .running ∧ Fits s.cfg noun ∧ Fits s.cfg verb
      ∧ ∃ m m', s.mem.write 1 noun = some m ∧ m.write 2 verb = some m' ∧ t = s.setMem m' := by
  unfold seed at h
  split at h
  · cases h
  rename_i hs
  split at h
  · rename_i hr
    simp only [Bool.and_eq_true, inRange_iff_fits] at hr
    split at h
    · cases h
    rename_i m hm
    split at h <;> cases h
    rename_i m' hm'
    exact ⟨not_not.1 hs, hr.1, hr.2, m, m', hm, hm', rfl⟩
  · cases h

theorem CoreInv.seed {noun verb : Int} {s t : State} (h : CoreInv s) (ht : seed noun verb s = .ok t) :
    CoreInv t := by
  obtain ⟨_, hn, hv, m, m', hm, hm', rfl⟩ := seed_ok ht
  exact (h.write hn hm).write hv hm'

/-- What PUSH_INPUT accepts, and what it then answers (R119, R124). -/
theorem pushInput_ok_iff {v : Int} {s t : State} :
    pushInput v s = .ok t ↔ Fits s.cfg v ∧ t = s.setInq (s.inq ++ [v]) := by
  rw [← inRange_iff_fits]
  cases h : inRange s.cfg v <;> simp [pushInput, h, eq_comm]

theorem CoreInv.pushInput {v : Int} {s t : State} (h : CoreInv s) (ht : pushInput v s = .ok t) :
    CoreInv t := by
  obtain ⟨hv, rfl⟩ := pushInput_ok_iff.1 ht
  exact h.setInq (by simpa [or_imp, forall_and, hv] using h.inq)

/-- POP_OUTPUT leaves the tail of OUTQ, of an empty one too (R120). -/
theorem popOutput_state (s : State) : (popOutput s).2 = s.setOutq s.outq.tail := by
  cases s with
  | mk cfg mem ip inq outq status fault => cases outq <;> rfl

theorem CoreInv.popOutput {s : State} (h : CoreInv s) : CoreInv (popOutput s).2 := by
  rw [popOutput_state]
  exact h.setOutq fun v hv => h.outq v (List.mem_of_mem_tail hv)

theorem CoreInv.coreRun {k : Nat} {s t : State} (h : CoreInv s)
    (hr : Host.Core.run Sys2Proof.core k s = .next t) : CoreInv t :=
  coreRun_induction (R := fun s t => CoreInv s → CoreInv t) (fun _ => id) (fun f g => g ∘ f)
    (fun hst h => h.step hst) k hr h

/-- Where RUN returns, its loop has ended in the state it returns (R121). -/
theorem runLoop_of_run {fuel : Nat} {s t : State} {r : RunResult} (h : run fuel s = some (t, r)) :
    runLoop fuel s = some t ∧ outcome t = some r := by
  unfold run at h
  split at h
  · cases h
  · rename_i u hu
    obtain ⟨r', hr', heq⟩ := Option.map_eq_some_iff.1 h
    cases heq
    exact ⟨hu, hr'⟩

theorem CoreInv.run {fuel : Nat} {s t : State} {r : RunResult} (h : CoreInv s)
    (hr : run fuel s = some (t, r)) : CoreInv t := by
  obtain ⟨n, _, hn⟩ := coreRun_of_runLoop (runLoop_of_run hr).1
  exact h.coreRun hn

end Sys2Proof.Safety
end

section
/-! SUPPORT. What every instruction leaves unchanged, derived from `Effect` once per piece of state. -/

namespace Sys2Proof.Machine

open Sys2Proof.Safety

/-! ### One piece of state each -/

/-- R22: no instruction changes the configuration. -/
theorem Effect.cfg_eq {i : Instr} {s t : State} (he : Effect i s t) : t.cfg = s.cfg := by
  cases he <;> rfl

/-- R11: no instruction changes `N`. -/
theorem Effect.size_eq {i : Instr} {s t : State} (he : Effect i s t) : t.mem.size = s.mem.size := by
  cases he <;> rfl

/-- R18: only OUT changes OUTQ. -/
theorem Effect.outq_eq {i : Instr} {s t : State} (he : Effect i s t) (hi : ∀ m, i ≠ .out m) :
    t.outq = s.outq := by
  cases he with
  | output m a ho hs => exact absurd ho (hi m)
  | _ => rfl

/-- R17: only IN changes INQ. -/
theorem Effect.inq_eq {i : Instr} {s t : State} (he : Effect i s t) (hi : ∀ m, i ≠ .inp m) :
    t.inq = s.inq := by
  cases he with
  | input m a v rest ho hd hq => exact absurd ho (hi m)
  | _ => rfl

/-- R78: "no other write path": an instruction without a destination changes no memory. -/
theorem Effect.mem_eq {i : Instr} {s t : State} (he : Effect i s t)
    (hi : ∀ k, i.op.role (k + 1) = .source) : t.mem = s.mem := by
  cases he with
  | store m1 m2 m3 a1 a2 a3 v hF3 h1 h2 h3 hv =>
    rcases hF3 with rfl | rfl | rfl | rfl <;> cases hi 2
  | input m a v rest ho hd hq => subst ho; cases hi 0
  | _ => rfl

/-- R14, R136: an instruction faults, halts (HLT alone does) or leaves STATUS and FAULT as they are. -/
theorem Effect.status_cases {i : Instr} {s t : State} (he : Effect i s t) :
    (i ≠ .hlt ∧ ∃ k, t = raise k s) ∨ (i ≠ .hlt ∧ t.status = s.status ∧ t.fault = s.fault)
      ∨ (i = .hlt ∧ t = advance 1 s.halt) := by
  by_cases hi : i = .hlt
  · subst hi
    exact .inr (.inr ⟨rfl, (Host.Outcome.next.inj (exec_of_effect he)).symm⟩)
  · cases he with
    | store | input | output | jump | fallThrough => exact .inr (.inl ⟨hi, rfl, rfl⟩)
    | halt h => exact absurd h hi
    | _ => exact .inl ⟨hi, _, rfl⟩

/-! ### The destination write -/

/-- R52: the destination of a format F3 instruction is its third operand. -/
theorem IsF3.destination {i : Instr} {m1 m2 m3 m : Mode} {k : Nat} (hi : IsF3 i m1 m2 m3)
    (hm : i.modes[k]? = some m) (hr : i.op.role (k + 1) = .destination) : k = 2 ∧ m = m3 := by
  have hmodes : i.modes = [m1, m2, m3] := by rcases hi with rfl | rfl | rfl | rfl <;> rfl
  have hk : k < 3 := by
    have := (List.getElem?_eq_some_iff.1 hm).1
    simpa [hmodes] using this
  have hk2 : k = 2 := by
    interval_cases k
    · rcases hi with rfl | rfl | rfl | rfl <;> cases hr
    · rcases hi with rfl | rfl | rfl | rfl <;> cases hr
    · rfl
  subst hk2
  simp only [hmodes] at hm
  cases hm
  exact ⟨rfl, rfl⟩

/-- R78: an instruction with a destination faults, or puts one value at the destination's address. -/
theorem Effect.destination_cases {i : Instr} {s t : State} (he : Effect i s t) {k : Nat} {m : Mode}
    (hm : i.modes[k]? = some m) (hr : i.op.role (k + 1) = .destination) :
    (∃ f, t = raise f s)
      ∨ ∃ a v, operand s i.op (k + 1) m = some a ∧ t.mem = s.mem.put a v := by
  cases he with
  | store m1 m2 m3 a1 a2 a3 v hi h1 h2 h3 hv =>
    obtain ⟨rfl, rfl⟩ := hi.destination hm hr
    exact .inr ⟨a3, v, h3, rfl⟩
  | input mj a v rest hi hd hq =>
    subst hi
    obtain rfl : k = 0 := by simpa [Instr.modes] using (List.getElem?_eq_some_iff.1 hm).1
    cases hm
    exact .inr ⟨a, v, hd, rfl⟩
  | output mj a hi hs => subst hi; cases hr
  | jump m1 m2 a1 a2 hi h1 h2 ht => rcases hi with ⟨rfl, _⟩ | ⟨rfl, _⟩ <;> cases hr
  | fallThrough m1 m2 a1 a2 hi h1 h2 => rcases hi with ⟨rfl, _⟩ | ⟨rfl, _⟩ <;> cases hr
  | halt hi => subst hi; cases hr
  | _ => exact .inl ⟨_, rfl⟩

/-- R34, R78: an instruction with a destination changes at most the cell at the destination's address. -/
theorem Effect.get_eq {i : Instr} {s t : State} (he : Effect i s t) {k : Nat} {m : Mode}
    (hm : i.modes[k]? = some m) (hr : i.op.role (k + 1) = .destination) {b : Nat}
    (hb : operand s i.op (k + 1) m ≠ some b) : t.mem.get b = s.mem.get b := by
  rcases he.destination_cases hm hr with ⟨f, rfl⟩ | ⟨a, v, ha, hmem⟩
  · rfl
  · rw [hmem, Memory.get_put_ne]
    rintro rfl
    exact hb ha

/-! ### The queues -/

/-- R17, R18: a step takes from the front of INQ and adds at the back of OUTQ. -/
theorem Effect.queues {i : Instr} {s t : State} (he : Effect i s t) :
    t.inq <:+ s.inq ∧ s.outq <+: t.outq := by
  cases he with
  | input m a v rest hi hd hq =>
    exact ⟨hq ▸ List.suffix_cons v rest, List.prefix_rfl⟩
  | output m a hi hs => exact ⟨List.suffix_rfl, List.prefix_append _ _⟩
  | _ => exact ⟨List.suffix_rfl, List.prefix_rfl⟩

theorem step_queues {s t : State} (h : step s = .next t) : t.inq <:+ s.inq ∧ s.outq <+: t.outq := by
  rcases step_next_cases h with ⟨_, rfl⟩ | ⟨k, _, _, rfl⟩ | ⟨i, _, _, he⟩
  · exact ⟨List.suffix_rfl, List.prefix_rfl⟩
  · exact ⟨List.suffix_rfl, List.prefix_rfl⟩
  · exact he.queues

/-- Further values queued: in front in OUTQ and at the back of INQ. -/
def State.widenQueues (earlier later : List Word) (s : State) : State :=
  { s with outq := earlier ++ s.outq, inq := s.inq ++ later }

/-- An instruction does the same with further values queued, unless it starves and one of them is an input. -/
theorem Effect.widenQueues {i : Instr} {s t : State} {earlier later : List Word} (he : Effect i s t)
    (hl : later = [] ∨ t.fault ≠ some .inputStarved) :
    Effect i (s.widenQueues earlier later) (t.widenQueues earlier later) := by
  cases he with
  | unresolved k m hm hn => exact .unresolved k m hm hn
  | overflow m1 m2 m3 a1 a2 a3 r hi h1 h2 h3 ho hr => exact .overflow m1 m2 m3 a1 a2 a3 r hi h1 h2 h3 ho hr
  | store m1 m2 m3 a1 a2 a3 v hi h1 h2 h3 hv => exact .store m1 m2 m3 a1 a2 a3 v hi h1 h2 h3 hv
  | starved m a hi hd hq =>
    obtain rfl : later = [] := hl.resolve_right fun hne => hne rfl
    exact .starved m a hi hd (by simp [State.widenQueues, hq])
  | input m a v rest hi hd hq =>
    exact .input m a v (rest ++ later) hi hd (by simp [State.widenQueues, hq])
  | output m a hi hs =>
    have h := Effect.output (s := s.widenQueues earlier later) m a hi hs
    have hout : advance 2 (pushOut (s.mem.get a) (s.widenQueues earlier later))
        = (advance 2 (pushOut (s.mem.get a) s)).widenQueues earlier later := by
      simp [State.widenQueues, pushOut, advance, State.setOutq, State.setIp]
    exact hout ▸ h
  | badTarget m1 m2 a1 a2 hi h1 h2 ht => exact .badTarget m1 m2 a1 a2 hi h1 h2 ht
  | jump m1 m2 a1 a2 hi h1 h2 ht => exact .jump m1 m2 a1 a2 hi h1 h2 ht
  | fallThrough m1 m2 a1 a2 hi h1 h2 => exact .fallThrough m1 m2 a1 a2 hi h1 h2
  | halt hi => exact .halt hi

/-- R17, R18: a step does the same with further values queued, unless it starves and one is an input. -/
theorem step_widenQueues {s t : State} {earlier later : List Word} (h : step s = .next t)
    (hl : later = [] ∨ t.fault ≠ some .inputStarved) :
    step (s.widenQueues earlier later) = .next (t.widenQueues earlier later) := by
  rcases step_next_cases h with ⟨hs, rfl⟩ | ⟨k, hs, hf, rfl⟩ | ⟨i, hs, hf, he⟩
  · exact step_of_finished hs
  · exact step_of_fetch_error (s := s.widenQueues earlier later) hs hf
  · exact (step_of_fetches (s := s.widenQueues earlier later) hs hf).trans
      (exec_of_effect (he.widenQueues hl))

/-! ### The rack of instances -/

/-- What a transaction that is done has made of the rack: LOAD adds an instance, and every other
transaction puts a new slot in the place its handle names (R23, R116, R125). -/
theorem hostAct_done_cases {fuel h : Nat} {tx : HostTx} {rack rack' : Rack} {r : TxResult}
    (hd : hostAct fuel h tx rack = .done rack' r) :
    (∃ c program s, tx = .load c program ∧ load c program = .ok s ∧ rack' = rack ++ [some s]
        ∧ r = .created rack.length)
      ∨ ((∀ c program, tx ≠ .load c program) ∧ ∃ s slot, rack[h]? = some (some s)
        ∧ actOn fuel tx s = .ok (slot, r) ∧ rack' = rack.set h slot) := by
  unfold hostAct at hd
  split at hd
  · rename_i c program
    split at hd <;> cases hd
    rename_i s hs
    exact .inl ⟨c, program, s, rfl, hs, rfl, rfl⟩
  · rename_i hload
    split at hd
    · rename_i s hs
      split at hd <;> cases hd
      rename_i slot hact
      exact .inr ⟨hload, s, slot, hs, hact, rfl⟩
    · cases hd

end Sys2Proof.Machine
end

section
/-! PROOFS. The statements about the state: what every step and every transaction keeps, and what each
leaves unchanged. -/

namespace Sys2Proof.Proofs

open Sys2Proof.Machine Sys2Proof.Safety

/-- Settles O40, by the effect of the instruction that the step executes. -/
theorem stepKeepsInvariant : Obligations.StepKeepsInvariant :=
  fun _ _ h hst => h.step hst

/-- Settles O52; RUN by induction over the steps its loop takes. -/
theorem transactionsKeepInvariant : Obligations.TransactionsKeepInvariant :=
  ⟨fun _ _ _ hc hl => coreInv_of_load hc hl, fun _ h =>
    ⟨fun _ _ _ ht => h.seed ht, fun _ _ ht => h.pushInput ht, h.popOutput, fun _ _ _ hr => h.run hr⟩⟩

/-- Settles O1: what LOAD accepts and answers, and the cells of the memory it makes. -/
theorem loadGivesResetState : Obligations.LoadGivesResetState :=
  fun c program hv hlen => ⟨freshState c program, load_ok_iff.2 ⟨hv, hlen, rfl⟩, rfl, rfl,
    fun _ ha => freshState_get c program ha, rfl, rfl, rfl, rfl, rfl⟩

/-- Settles O3: the invariants at reset are those LOAD establishes. -/
theorem invariantHoldsAtReset : Obligations.InvariantHoldsAtReset :=
  have hl : load Config.default [] = .ok State.reset := rfl
  ⟨hl, coreInv_of_load (by decide) hl⟩

/-- Settles O23: of the instructions, only HLT leaves STATUS Halted. -/
theorem statusTransitions : Obligations.StatusTransitions := by
  intro s t h
  rcases step_next_cases h with ⟨hs, rfl⟩ | ⟨k, hs, hf, rfl⟩ | ⟨i, hs, hf, he⟩
  · exact ⟨fun _ => rfl, fun hr => absurd hr hs⟩
  · refine ⟨fun hn => absurd hs hn, fun _ => ?_⟩
    simp [fetches_iff, hf]
  · refine ⟨fun hn => absurd hs hn, fun _ => ?_⟩
    have hfetch : Fetches s .hlt ↔ i = .hlt := by
      simp [fetches_iff, fetches_iff.1 hf]
    rw [hfetch]
    rcases he.status_cases with ⟨hi, k, rfl⟩ | ⟨hi, hst, _⟩ | ⟨hi, rfl⟩
    · simp [hi]
    · simp [hi, hst, hs]
    · simp [hi]

/-- Settles O38: the destination is the only write, and each other piece of state by its own frame lemma. -/
theorem storingInstructionsFrame : Obligations.StoringInstructionsFrame := by
  intro m1 m2 m3 s t i d m hi h
  have he : Effect i s t := exec_next_iff.1 h
  obtain ⟨k, rfl, hm, hr⟩ : ∃ k, d = k + 1 ∧ i.modes[k]? = some m ∧ i.op.role (k + 1) = .destination := by
    rcases hi with ⟨rfl, rfl, rfl | rfl | rfl | rfl⟩ | ⟨rfl, rfl, rfl⟩
    iterate 4 exact ⟨2, rfl, rfl, rfl⟩
    exact ⟨0, rfl, rfl, rfl⟩
  have hout : ∀ m', i ≠ .out m' := by rintro m' rfl; cases hr
  have hinp : i ≠ .inp m1 → ∀ m', i ≠ .inp m' := by
    rintro hne m' rfl
    rcases hi with ⟨_, _, hF3⟩ | ⟨_, _, heq⟩
    · simp at hF3
    · exact hne heq
  refine ⟨fun a ha b hb => he.get_eq hm hr (by simp [ha, Ne.symm hb]),
    fun hn b => he.get_eq hm hr (by simp [hn]), he.size_eq, he.cfg_eq, he.outq_eq hout,
    fun hne => he.inq_eq (hinp hne), ?_⟩
  rcases he.status_cases with ⟨_, f, rfl⟩ | ⟨_, hs⟩ | ⟨rfl, _⟩
  · exact .inr ⟨rfl, by simp, rfl, rfl, rfl⟩
  · exact .inl hs
  · cases hm

/-- Settles O39: none of the four has a destination, and only HLT writes STATUS without a fault. -/
theorem nonStoringInstructionsFrame : Obligations.NonStoringInstructionsFrame := by
  intro m1 m2 s t i hi h
  have he : Effect i s t := exec_next_iff.1 h
  have hmem : t.mem = s.mem := he.mem_eq fun k => by rcases hi with rfl | rfl | rfl | rfl <;> rfl
  have hinp : ∀ m, i ≠ .inp m := by rcases hi with rfl | rfl | rfl | rfl <;> simp
  have hout : i ≠ .out m1 → ∀ m, i ≠ .out m := by
    rcases hi with rfl | rfl | rfl | rfl <;> simp
  refine ⟨hmem, fun b => by rw [hmem], he.cfg_eq, he.inq_eq hinp, fun hne => he.outq_eq (hout hne), ?_⟩
  rcases he.status_cases with ⟨hne, f, rfl⟩ | ⟨hne, hs⟩ | ⟨rfl, rfl⟩
  · exact .inr (.inr ⟨hne, rfl, by simp, rfl, rfl⟩)
  · exact .inl ⟨hne, hs⟩
  · exact .inr (.inl ⟨rfl, rfl, rfl⟩)

/-- Settles O41, by induction over the steps: suffixes of INQ and extensions of OUTQ compose. -/
theorem queuesAreFifo : Obligations.QueuesAreFifo := by
  intro k s t h
  obtain ⟨⟨taken, hin⟩, ⟨pushed, hout⟩⟩ : t.inq <:+ s.inq ∧ s.outq <+: t.outq :=
    coreRun_induction (R := fun s t => t.inq <:+ s.inq ∧ s.outq <+: t.outq)
      (fun _ => ⟨List.suffix_rfl, List.prefix_rfl⟩)
      (fun hst htu => ⟨htu.1.trans hst.1, hst.2.trans htu.2⟩) step_queues k h
  exact ⟨taken, pushed, hin.symm, hout.symm⟩

/-- Settles O42: the step with further outputs in front and no further input. -/
theorem outputsCannotBeRead : Obligations.OutputsCannotBeRead := by
  intro s t earlier h
  simpa [State.widenQueues] using step_widenQueues (earlier := earlier) h (.inl rfl)

/-- Settles O43: the step with further inputs at the back and no further output. -/
theorem laterInputsChangeNothing : Obligations.LaterInputsChangeNothing := by
  intro s t later h hns
  simpa [State.widenQueues] using step_widenQueues (earlier := []) h (.inr hns)

/-- Settles O53: LOAD appends to the rack, and every other transaction sets the one place of its handle. -/
theorem instancesAreIndependent : Obligations.InstancesAreIndependent := by
  intro fuel h tx rack rack' r hd j hj hother
  rcases hostAct_done_cases hd with ⟨c, program, s, _, _, rfl, _⟩ | ⟨hload, s, slot, _, _, rfl⟩
  · exact List.getElem?_append_left hj
  · have hne : j ≠ h := hother.resolve_right fun ⟨c, program, hl⟩ => hload c program hl
    exact List.getElem?_set_ne hne.symm

end Sys2Proof.Proofs
end

section
/-! SUPPORT. `MemRead` and `MemWrite` on any integer address: where each faults, and a read after a write. -/

namespace Sys2Proof.Machine

theorem Memory.read_eq_none_iff (m : Memory) (a : Int) :
    m.read a = none ↔ ¬ (0 ≤ a ∧ a < (m.size : Int)) := by
  simp [Memory.read, ← Memory.valid_iff]

theorem Memory.write_eq_none_iff (m : Memory) (a v : Int) :
    m.write a v = none ↔ ¬ (0 ≤ a ∧ a < (m.size : Int)) := by
  simp [Memory.write, ← Memory.valid_iff]

/-- A write that is done was at a natural number below `N`, and puts the value there (R34). -/
theorem Memory.write_eq_some {m m' : Memory} {a v : Int} (h : m.write a v = some m') :
    ∃ k : Nat, a = k ∧ k < m.size ∧ m' = m.put k v := by
  have hvalid : 0 ≤ a ∧ a < (m.size : Int) := by
    by_contra hn
    cases h.symm.trans ((m.write_eq_none_iff a v).2 hn)
  obtain ⟨k, rfl⟩ := Int.eq_ofNat_of_zero_le hvalid.1
  have hk : k < m.size := Int.ofNat_lt.1 hvalid.2
  rw [Memory.write_ofNat, if_pos hk] at h
  exact ⟨k, rfl, hk, (Option.some.inj h).symm⟩

/-- A read after the value of a valid address has been put; a negative address reads nothing before or
after. -/
theorem Memory.read_put {m : Memory} {k : Nat} (hk : k < m.size) (v b : Int) :
    (m.put k v).read b = if b = k then some v else m.read b := by
  cases b with
  | ofNat b =>
    simp only [Int.ofNat_eq_natCast, Memory.read_ofNat, Memory.put_size, Memory.get_put, Nat.cast_inj]
    by_cases hb : b = k
    · simp [hb, hk]
    · simp [hb]
  | negSucc b =>
    have hneg : ∀ m' : Memory, m'.read (Int.negSucc b) = none := fun m' =>
      (m'.read_eq_none_iff _).2 fun h => absurd h.1 (by omega)
    rw [hneg, hneg, if_neg (by omega)]

end Sys2Proof.Machine
end

section
/-! SUPPORT. `OperandAt` of the statements is the resolver's answer, where a storing instruction completes,
and where IP then is. -/

namespace Sys2Proof.Machine

open Sys2Proof.Safety

/-! ### Operands -/

/-- The resolver answers an address exactly where the rule of R75 gives it. -/
theorem resolve_eq_some_iff {s : State} {i : Nat} {m : Mode} {a : Nat} :
    resolve s i m = some a ↔ OperandAt s i m a := by
  unfold OperandAt
  rcases resolve_cases s i m with ⟨hc, hr⟩ | ⟨hc, rfl, hr⟩ | ⟨hc, rfl, hv, hr⟩ | ⟨hc, rfl, hv, hr⟩
  · simp [hr, Nat.not_lt.2 hc]
  · simp [hr, hc, eq_comm]
  · have hvalid := (s.mem.valid_iff _).1 hv
    simp only [hr, Option.some.injEq, hc, true_and]
    omega
  · have hinvalid : ¬ (0 ≤ s.mem.get (s.ip + i) ∧ s.mem.get (s.ip + i) < s.mem.size) := by
      simp [← Memory.valid_iff, hv]
    simp only [hr, reduceCtorEq, hc, true_and, false_iff]
    omega

theorem operand_of_source {s : State} {op : Op} {i a : Nat} {m : Mode} (hr : op.role i = .source)
    (h : OperandAt s i m a) : operand s op i m = some a := by
  rw [operand, hr]
  exact resolve_eq_some_iff.2 h

/-- R74: a destination is resolved as Position, whatever its encoded mode. -/
theorem operand_of_destination {s : State} {op : Op} {i a : Nat} {m : Mode}
    (hr : op.role i = .destination) (h : OperandAt s i .position a) : operand s op i m = some a := by
  rw [operand, hr]
  exact resolve_eq_some_iff.2 h

/-! ### Where a storing instruction completes -/

/-- A result that fits a cell is written as it is, with either `OVF` (R92). -/
theorem narrow_of_fits {c : Config} {r : Int} (h : Fits c r) : narrow c r = some r := by
  rw [narrow, if_pos ((inRange_iff_fits c r).2 h)]

/-- ADD, MUL, LT or EQ whose operands resolve and whose operation has a value to store, stores it. -/
theorem exec_store {i : Instr} {m1 m2 m3 : Mode} {s : State} {a1 a2 a3 : Nat} {v : Int}
    (hi : IsF3 i m1 m2 m3) (h1 : OperandAt s 1 m1 a1) (h2 : OperandAt s 2 m2 a2)
    (h3 : OperandAt s 3 .position a3)
    (hv : storedValue s.cfg i.op (s.mem.get a1) (s.mem.get a2) = some v) :
    exec i s = .next (advance 4 (s.setMem (s.mem.put a3 v))) := by
  obtain ⟨hr1, hr2, hr3⟩ : i.op.role 1 = .source ∧ i.op.role 2 = .source ∧ i.op.role 3 = .destination := by
    rcases hi with rfl | rfl | rfl | rfl <;> exact ⟨rfl, rfl, rfl⟩
  exact exec_of_effect (.store m1 m2 m3 a1 a2 a3 v hi (operand_of_source hr1 h1)
    (operand_of_source hr2 h2) (operand_of_destination hr3 h3) hv)

/-- IN whose destination resolves stores the front of a queue that is not empty (R95). -/
theorem exec_input {m1 : Mode} {s : State} {a : Nat} {v : Int} {rest : List Word}
    (h : OperandAt s 1 .position a) (hq : s.inq = v :: rest) :
    exec (.inp m1) s = .next (advance 2 ((s.setInq rest).setMem (s.mem.put a v))) :=
  exec_of_effect (.input m1 a v rest rfl (operand_of_destination rfl h) hq)

/-! ### The instruction after the one that completes -/

/-- R80: IP after an instruction that neither faults nor is a jump. -/
theorem Effect.ip_eq {i : Instr} {s t : State} (he : Effect i s t) (ht : t.status ≠ .faulted)
    (hi : i.op ≠ .jt ∧ i.op ≠ .jf) : t.ip = s.ip + i.op.width := by
  obtain ⟨hjt, hjf⟩ := hi
  cases he with
  | store m1 m2 m3 a1 a2 a3 v hF3 h1 h2 h3 hv => rcases hF3 with rfl | rfl | rfl | rfl <;> rfl
  | input m a v rest ho hd hq => subst ho; rfl
  | output m a ho hs => subst ho; rfl
  | jump m1 m2 a1 a2 hj h1 h2 htgt =>
    rcases hj with ⟨rfl, _⟩ | ⟨rfl, _⟩
    · exact absurd rfl hjt
    · exact absurd rfl hjf
  | fallThrough m1 m2 a1 a2 hj h1 h2 =>
    rcases hj with ⟨rfl, _⟩ | ⟨rfl, _⟩
    · exact absurd rfl hjt
    · exact absurd rfl hjf
  | halt ho => subst ho; rfl
  | _ => exact absurd rfl ht

/-- R14: an instruction that neither faults nor is HLT leaves STATUS as it is. -/
theorem Effect.status_eq {i : Instr} {s t : State} (he : Effect i s t) (ht : t.status ≠ .faulted)
    (hi : i ≠ .hlt) : t.status = s.status := by
  rcases he.status_cases with ⟨_, k, rfl⟩ | ⟨_, hst, _⟩ | ⟨hhlt, _⟩
  · exact absurd rfl ht
  · exact hst
  · exact absurd hhlt hi

/-- R41 for an instruction with a destination, whatever it has stored: the next fetch reads the cell after
it, as that cell is then. -/
theorem fetches_after_store {i j : Instr} {k : Nat} {s t : State} (hr : i.op.role (k + 1) = .destination)
    (hlt : s.ip + i.op.width < s.mem.size) (he : Effect i s t) (ht : t.status ≠ .faulted)
    (hd : decode s.cfg (t.mem.get (s.ip + i.op.width)) = .ok j) : Fetches t j := by
  have hjump : i.op ≠ .jt ∧ i.op ≠ .jf := by
    constructor <;> intro h <;> rw [h] at hr <;> cases hr
  rw [Fetches, he.ip_eq ht hjump, he.size_eq, he.cfg_eq]
  exact ⟨hlt, hd⟩

/-- R41: what has just been stored in the cell the advance leads to is the word that runs next. -/
theorem stored_word_runs {s : State} {n : Nat} {v : Int} {j : Instr} (hs : s.status = .running)
    (hlt : s.ip + n < s.mem.size) (hd : decode s.cfg v = .ok j) {t : State}
    (ht : t = advance n (s.setMem (s.mem.put (s.ip + n) v))) :
    t.mem.get t.ip = v ∧ step t = exec j t := by
  have hcell : t.mem.get t.ip = v := by simp [ht]
  have hfetch : Fetches t j := ⟨by simpa [ht] using hlt, by simpa [hcell, ht] using hd⟩
  exact ⟨hcell, step_of_fetches (by simpa [ht] using hs) hfetch⟩

end Sys2Proof.Machine
end

section
/-! PROOFS. The statements about memory: reads after writes, and the fetch of a word just stored. -/

namespace Sys2Proof.Proofs

open Sys2Proof.Machine Sys2Proof.Safety

/-- Settles O12: a write that is done puts the value in a cell, and a read of that memory splits on whether
the address is that cell's. -/
theorem memoryReadAfterWrite : Obligations.MemoryReadAfterWrite := by
  intro m a v
  refine ⟨fun k hk => by rw [Memory.read_ofNat, if_pos hk], m.read_eq_none_iff a,
    m.write_eq_none_iff a v, fun m' hw => ?_⟩
  obtain ⟨k, rfl, hk, rfl⟩ := Memory.write_eq_some hw
  exact ⟨Memory.put_size m k v, Memory.read_put hk v⟩

/-- Settles O44: a completed store leaves IP at the cell it wrote, and the next fetch reads it there. -/
theorem storeSeenByNextFetch : Obligations.StoreSeenByNextFetch := by
  refine ⟨fun i j k m s t hs hm hr hdest hx ht hd => ?_,
    fun m1 m2 m3 s a1 a2 j hs h1 h2 h3 i v hv hd => ?_, fun m1 s v rest j hs hdest hq hd => ?_⟩
  · have he : Effect i s t := exec_next_iff.1 hx
    have hfetch : Fetches t j := fetches_after_store hr (resolve_lt (resolve_eq_some_iff.2 hdest)) he ht hd
    have hhlt : i ≠ .hlt := by rintro rfl; cases hm
    exact ⟨hfetch, step_of_fetches ((he.status_eq ht hhlt).trans hs) hfetch⟩
  · obtain ⟨hi, hstored⟩ : IsF3 i m1 m2 m3
        ∧ storedValue s.cfg i.op (s.mem.get a1) (s.mem.get a2) = some v := by
      rcases hv with ⟨rfl, rfl, hfits⟩ | ⟨rfl, rfl, hfits⟩ | ⟨rfl, rfl⟩ | ⟨rfl, rfl⟩
      · exact ⟨.inl rfl, narrow_of_fits hfits⟩
      · exact ⟨.inr (.inl rfl), narrow_of_fits hfits⟩
      · exact ⟨.inr (.inr (.inl rfl)), by simp [storedValue, truth, Instr.op]⟩
      · exact ⟨.inr (.inr (.inr rfl)), by simp [storedValue, truth, Instr.op]⟩
    exact ⟨_, exec_store hi h1 h2 h3 hstored,
      stored_word_runs hs (resolve_lt (resolve_eq_some_iff.2 h3)) hd rfl⟩
  · have hlt : s.ip + 2 < s.mem.size := resolve_lt (resolve_eq_some_iff.2 hdest)
    exact ⟨_, exec_input hdest hq, stored_word_runs (s := s.setInq rest) hs hlt hd rfl⟩

end Sys2Proof.Proofs
end

section
/-! SUPPORT. What the decoder answers, said once: the words an instruction is decoded from, digit by digit,
and the digits of an encoded word. -/

namespace Sys2Proof

/-! ### The decoder's checks -/

theorem forall_lt_three {p : Nat → Prop} : (∀ k < 3, p k) ↔ p 0 ∧ p 1 ∧ p 2 := by
  refine ⟨fun h => ⟨h 0 (by decide), h 1 (by decide), h 2 (by decide)⟩, ?_⟩
  rintro ⟨h0, h1, h2⟩ k hk
  interval_cases k <;> assumption

/-- Check (b) of R57; operand 1's mode digit has weight 10^2 (R51), so operand `k + 1`'s is
`digit w (k + 2)`. -/
theorem usedDigitBad_eq_false_iff {n w : Nat} :
    usedDigitBad n (digit w 2) (digit w 3) (digit w 4) = false
      ↔ ∀ k < 3, k < n → digit w (k + 2) ≤ 1 := by
  rw [forall_lt_three]
  simp [usedDigitBad, Nat.succ_le_iff, and_assoc]

/-- The part of check (c) of R57 that is about the three mode digits. -/
theorem unusedDigitSet_eq_false_iff {n w : Nat} :
    unusedDigitSet n (digit w 2) (digit w 3) (digit w 4) = false
      ↔ ∀ k < 3, n ≤ k → digit w (k + 2) = 0 := by
  rw [forall_lt_three]
  simp [unusedDigitSet, Nat.lt_succ_iff, and_assoc]

/-- The non-negative word `w` passes every check of R57, and `i` is its instruction. -/
structure DecodesTo (c : Config) (w : Nat) (i : Instr) : Prop where
  op : opOf c (w % 100) = some i.op
  used : ∀ k < 3, k < i.op.operands → digit w (k + 2) ≤ 1
  unused : ∀ k < 3, i.op.operands ≤ k → digit w (k + 2) = 0
  high : w < 100000
  instr : instrOf i.op (modeOf (digit w 2)) (modeOf (digit w 3)) (modeOf (digit w 4)) = i

theorem decodeNat_eq_ok_iff {c : Config} {w : Nat} {i : Instr} :
    decodeNat c w = .ok i ↔ DecodesTo c w i := by
  constructor
  · intro h
    unfold decodeNat at h
    split at h
    · cases h
    next op hop =>
      split_ifs at h with hused hunused hhigh
      cases h
      exact ⟨by simpa using hop, by simpa using usedDigitBad_eq_false_iff.1 (by simpa using hused),
        by simpa using unusedDigitSet_eq_false_iff.1 (by simpa using hunused), by omega, by simp⟩
  · rintro ⟨hop, hused, hunused, hhigh, hinstr⟩
    simp [decodeNat, hop, usedDigitBad_eq_false_iff.2 hused, unusedDigitSet_eq_false_iff.2 hunused,
      hhigh, hinstr]

/-- Everything `decode` accepts (R57): the word is not negative and passes every check. -/
theorem decode_eq_ok_iff {c : Config} {w : Int} {i : Instr} :
    decode c w = .ok i ↔ ∃ n : Nat, w = n ∧ DecodesTo c n i := by
  unfold decode
  split
  · simp only [reduceCtorEq, false_iff]
    rintro ⟨n, rfl, _⟩
    omega
  · rw [decodeNat_eq_ok_iff]
    constructor
    · exact fun h => ⟨w.toNat, by omega, h⟩
    · rintro ⟨n, rfl, h⟩
      exact h

/-! ### The word of a decoded instruction -/

theorem forall_op_iff {p : Op → Prop} : (∀ op, p op) ↔ ∀ op ∈ Op.all, p op :=
  ⟨fun h op _ => h op, fun h op => h op (mem_opAll op)⟩

theorem cast_digit (n k : Nat) : ((digit n k : Nat) : Int) = (n : Int) / 10 ^ k % 10 := by
  simp [digit]

/-- R59: negative words and words of more than five digits are no instructions. -/
theorem decode_bounds {c : Config} {w : Int} {i : Instr} (h : decode c w = .ok i) :
    0 ≤ w ∧ w < 100000 := by
  obtain ⟨n, rfl, hd⟩ := decode_eq_ok_iff.1 h
  have := hd.high
  omega

/-- R60: the operation of a decoded instruction is in `OPSET`, under the id the word's `OP` field holds. -/
theorem decode_op {c : Config} {w : Int} {i : Instr} (h : decode c w = .ok i) :
    c.opset.get i.op = true ∧ (c.opmap.get i.op : Int) = w % 100 := by
  obtain ⟨n, rfl, hd⟩ := decode_eq_ok_iff.1 h
  obtain ⟨hset, hid⟩ := opOf_some hd.op
  exact ⟨hset, by omega⟩

/-- R52: in a legal configuration the id decides which operation a word decodes to. -/
theorem decode_op_unique {c : Config} {w : Int} {i : Instr} {op : Op} (hc : c.wf = true)
    (hid : w % 100 = (c.opmap.get op : Int)) (h : decode c w = .ok i) : i.op = op := by
  obtain ⟨_, _, hdistinct⟩ := (Config.wf_iff c).1 hc
  exact opmap_injective hdistinct (by exact_mod_cast (decode_op h).2.trans hid)

theorem operands_le (op : Op) : op.operands ≤ 3 := by cases op <;> decide

/-- R58: the mode digit of an operand the operation has is 0 or 1. -/
theorem decode_used_digit {c : Config} {w : Int} {i : Instr} {k : Nat} (h : decode c w = .ok i)
    (h1 : 1 ≤ k) (hk : k ≤ i.op.operands) : w / 10 ^ (k + 1) % 10 < 2 := by
  obtain ⟨n, rfl, hd⟩ := decode_eq_ok_iff.1 h
  obtain ⟨j, rfl⟩ := Nat.exists_eq_add_of_le' h1
  have hdigit : digit n (j + 1 + 1) ≤ 1 := hd.used j (hk.trans (operands_le _)) hk
  rw [← cast_digit]
  omega

/-- R59: the digits in the mode positions beyond the operand count are 0. -/
theorem decode_unused_digit {c : Config} {w : Int} {i : Instr} {k : Nat} (h : decode c w = .ok i)
    (hk : i.op.operands < k) (h3 : k ≤ 3) : w / 10 ^ (k + 1) % 10 = 0 := by
  obtain ⟨n, rfl, hd⟩ := decode_eq_ok_iff.1 h
  obtain ⟨j, rfl⟩ := Nat.exists_eq_add_of_le' (Nat.one_le_of_lt hk)
  rw [← cast_digit, hd.unused j h3 (Nat.lt_succ_iff.1 hk), Nat.cast_zero]

/-! ### The digits of an encoded word -/

theorem encodedDigit_le (ms : List Mode) (k : Nat) : encodedDigit ms k ≤ 1 := by
  unfold encodedDigit
  split
  · exact modeDigit_le _
  · exact Nat.zero_le _

theorem encodedDigit_of_length_le {ms : List Mode} {k : Nat} (h : ms.length ≤ k) :
    encodedDigit ms k = 0 := by
  rw [encodedDigit, List.getElem?_eq_none h]

theorem instrOf_modes (op : Op) (m1 m2 m3 : Mode) :
    (instrOf op m1 m2 m3).modes = [m1, m2, m3].take op.operands := by
  cases op <;> rfl

theorem modes_length (i : Instr) : i.modes.length = i.op.operands := by cases i <;> rfl

/-- An instruction is rebuilt from its operation and the mode digits its word has (R51, R53). -/
theorem instrOf_encodedDigits (i : Instr) :
    instrOf i.op (modeOf (encodedDigit i.modes 0)) (modeOf (encodedDigit i.modes 1))
      (modeOf (encodedDigit i.modes 2)) = i := by
  cases i <;> simp [instrOf, Instr.op, Instr.modes, encodedDigit]

/-- The mode digits of an instruction whose operation and modes come from a word's digits are those
digits, where they are legal. -/
theorem encodedDigit_instrOf {op : Op} {d : Nat → Nat} (hused : ∀ k < 3, k < op.operands → d k ≤ 1)
    (hunused : ∀ k < 3, op.operands ≤ k → d k = 0) {k : Nat} (hk : k < 3) :
    encodedDigit (instrOf op (modeOf (d 0)) (modeOf (d 1)) (modeOf (d 2))).modes k = d k := by
  by_cases hop : k < op.operands
  · have hmode : (instrOf op (modeOf (d 0)) (modeOf (d 1)) (modeOf (d 2))).modes[k]?
        = some (modeOf (d k)) := by
      rw [instrOf_modes, List.getElem?_take_of_lt hop]
      interval_cases k <;> rfl
    rw [encodedDigit, hmode]
    exact modeDigit_modeOf (hused k hk hop)
  · rw [hunused k hk (not_lt.1 hop)]
    exact encodedDigit_of_length_le (by simpa [modes_length] using hop)

/-- R51: the digits of an encoded word `C B A OP` are its fields, since each fits its place. -/
theorem digits_of_encode {c : Config} {i : Instr} {n : Nat} (hc : c.wf = true) (hn : encode c i = n) :
    n % 100 = c.opmap.get i.op ∧ n < 100000 ∧ ∀ k < 3, digit n (k + 2) = encodedDigit i.modes k := by
  obtain ⟨_, hids, _⟩ := (Config.wf_iff c).1 hc
  have hid : c.opmap.get i.op < 100 := opmap_lt hids i.op
  have h0 := encodedDigit_le i.modes 0
  have h1 := encodedDigit_le i.modes 1
  have h2 := encodedDigit_le i.modes 2
  rw [forall_lt_three]
  simp only [encode] at hn
  simp only [digit]
  omega

/-- R51, R53, R57: an encoded instruction of `OPSET` passes every check of the decoder. -/
theorem decodesTo_of_encode {c : Config} {i : Instr} {n : Nat} (hc : c.wf = true)
    (hi : i.wf c = true) (hn : encode c i = n) : DecodesTo c n i := by
  obtain ⟨hid, hhigh, hdigit⟩ := digits_of_encode hc hn
  refine ⟨?_, fun k hk _ => ?_, fun k hk hop => ?_, hhigh, ?_⟩
  · rw [hid]
    exact opOf_opmap hc hi
  · rw [hdigit k hk]
    exact encodedDigit_le _ k
  · rw [hdigit k hk]
    exact encodedDigit_of_length_le (by rwa [modes_length])
  · rw [hdigit 0 (by decide), hdigit 1 (by decide), hdigit 2 (by decide)]
    exact instrOf_encodedDigits i

/-- R57, R59, R62: a word that passes every check is the encoding of its instruction. -/
theorem DecodesTo.encode_eq {c : Config} {n : Nat} {i : Instr} (h : DecodesTo c n i) :
    encode c i = n := by
  obtain ⟨_, hid⟩ := opOf_some h.op
  have hdigit : ∀ k < 3, encodedDigit i.modes k = digit n (k + 2) := fun k hk => by
    have hmodes := encodedDigit_instrOf (d := fun j => digit n (j + 2)) h.used h.unused hk
    rwa [h.instr] at hmodes
  have hword := word_of_digits (Nat.div_eq_of_lt h.high)
  rw [encode, hid, hdigit 0 (by decide), hdigit 1 (by decide), hdigit 2 (by decide), hword]

end Sys2Proof
end

section
/-! SUPPORT. The step on a word that does not decode, and what of an instruction `exec` depends on. -/

namespace Sys2Proof.Machine

/-- R72: a word that does not decode raises DecodeError, and nothing else changes (R136). -/
theorem step_of_undecodable {s : State} (hs : s.status = .running) (hip : s.ip < s.mem.size)
    (hd : ∀ i, decode s.cfg (s.mem.get s.ip) ≠ .ok i) :
    step s = .next { s with status := .faulted, fault := some .decodeError } := by
  rcases fetchDecode_cases s with ⟨hge, _⟩ | ⟨_, _, hf⟩ | ⟨i, _, hok, _⟩
  · omega
  · exact step_of_fetch_error hs hf
  · exact absurd hok (hd i)

/-- R52, R61, R73: which operands are destinations. -/
theorem role_eq_destination_iff (op : Op) (k : Nat) : op.role k = .destination ↔
    (k = 3 ∧ (op = .add ∨ op = .mul ∨ op = .lt ∨ op = .eq)) ∨ (k = 1 ∧ op = .inp) := by
  unfold Op.role
  split <;> simp_all
  tauto

/-- Every destination is an operand its operation has. -/
theorem operand_of_role_destination {op : Op} {k : Nat} (h : op.role k = .destination) :
    1 ≤ k ∧ k ≤ op.operands := by
  rcases (role_eq_destination_iff op k).1 h with ⟨rfl, rfl | rfl | rfl | rfl⟩ | ⟨rfl, rfl⟩ <;> decide

theorem exists_eq_instrOf (i : Instr) : ∃ m1 m2 m3, i = instrOf i.op m1 m2 m3 :=
  ⟨_, _, _, (instrOf_encodedDigits i).symm⟩

/-- R61: the meaning of an operation's instruction depends on the modes of its sources alone. -/
theorem exec_instrOf_congr {op : Op} {m1 m2 m3 n1 n2 n3 : Mode} (s : State)
    (h : ∀ k, op.role (k + 1) = .source →
      (instrOf op m1 m2 m3).modes[k]? = (instrOf op n1 n2 n3).modes[k]?) :
    exec (instrOf op m1 m2 m3) s = exec (instrOf op n1 n2 n3) s := by
  cases op with
  | add | mul | lt | eq | jt | jf =>
    obtain rfl : m1 = n1 := Option.some.inj (h 0 rfl)
    obtain rfl : m2 = n2 := Option.some.inj (h 1 rfl)
    rfl
  | out =>
    obtain rfl : m1 = n1 := Option.some.inj (h 0 rfl)
    rfl
  | inp | hlt => rfl

end Sys2Proof.Machine
end

section
/-! PROOFS. The statements about encoding: the decoder and the encoder agree, and which words fault. -/

namespace Sys2Proof.Proofs

open Sys2Proof.Machine Sys2Proof.Safety

/-- Settles O5: the digits of an encoded word are its instruction's fields, so every check passes. -/
theorem encodeThenDecode : Obligations.EncodeThenDecode :=
  fun _ _ hc hi => decode_eq_ok_iff.2 ⟨_, rfl, decodesTo_of_encode hc hi rfl⟩

/-- Settles O6: the checks leave no digit of the word out of the instruction. -/
theorem decodeThenEncode : Obligations.DecodeThenEncode := by
  intro c w i h
  obtain ⟨n, rfl, hd⟩ := decode_eq_ok_iff.1 h
  exact ⟨hd.encode_eq, (decode_op h).1⟩

/-- Settles O8: a decoded word's `OP` field is the id of an operation in `OPSET`. -/
theorem unknownOpcodeFaults : Obligations.UnknownOpcodeFaults := by
  refine ⟨fun s hs hip hno => step_of_undecodable hs hip fun i hd => ?_, fun id hid => ?_⟩
  · obtain ⟨hset, hop⟩ := decode_op hd
    exact hno i.op hset hop
  · rw [forall_op_iff]
    simp only [Op.all, List.forall_mem_cons, List.not_mem_nil, IsEmpty.forall_iff, implies_true,
      forall_const, and_true, PerOp.get, Config.default, Config.defaultOpmap, Config.allOps]
    omega

/-- Settles O9: the mode digit of an operand that a decoded word's operation has is below 2. -/
theorem illegalModeDigitFaults : Obligations.IllegalModeDigitFaults := by
  intro s op k hc _ hs hip _ hid h1 hk hdigit
  refine step_of_undecodable hs hip fun i hd => ?_
  have hop : i.op = op := decode_op_unique hc hid hd
  have hlt := decode_used_digit hd h1 (hop ▸ hk)
  omega

/-- Settles O10: a decoded word is in `[0, 100000)` and its mode digits beyond the operand count are 0. -/
theorem unusedDigitsFault : Obligations.UnusedDigitsFault := by
  intro s hs hip hbad
  refine step_of_undecodable hs hip fun i hd => ?_
  obtain ⟨h0, hhigh⟩ := decode_bounds hd
  rcases hbad with hneg | hbig | ⟨op, k, hc, _, hid, hk, h3, hdigit⟩
  · omega
  · omega
  · have hop : i.op = op := decode_op_unique hc hid hd
    exact hdigit (decode_unused_digit hd (hop ▸ hk) h3)

/-- Settles O11: the resolver and `exec` read no destination mode, and its digit is checked like any other. -/
theorem destinationDigitSelectsNothing : Obligations.DestinationDigitSelectsNothing := by
  refine ⟨role_eq_destination_iff, fun s op k m hr => by rw [operand, hr]; rfl,
    fun i j s hop hmodes => ?_, fun c w op k hc _ _ hid hr hdigit i hd => ?_⟩
  · obtain ⟨m1, m2, m3, hi⟩ := exists_eq_instrOf i
    obtain ⟨n1, n2, n3, hj⟩ := exists_eq_instrOf j
    rw [← hop] at hj
    rw [hi, hj]
    exact exec_instrOf_congr s fun k hk => by rw [← hi, ← hj]; exact hmodes k hk
  · obtain ⟨h1, hk⟩ := operand_of_role_destination hr
    have hop : i.op = op := decode_op_unique hc hid hd
    have hlt := decode_used_digit hd h1 (hop ▸ hk)
    omega

/-- Settles O16: the encoded word decodes back to the instruction, and the step runs what it fetches. -/
theorem encodedWordIsExecuted : Obligations.EncodedWordIsExecuted :=
  fun s i hs hc hi hip hw =>
    step_of_fetches hs ⟨hip, hw ▸ encodeThenDecode s.cfg i hc hi⟩

/-- Settles O4, by evaluating the decoder on the fifteen words. -/
theorem specWordsDecode : Obligations.SpecWordsDecode :=
  ⟨rfl, rfl, rfl, rfl, rfl, rfl, rfl, rfl, rfl, rfl, rfl, rfl, rfl, rfl, rfl⟩

end Sys2Proof.Proofs
end

section
/-! SUPPORT. The instruction cycle: an operand under its effective mode, the fetch at or above `N`, IP after a
jump, and the steps of an instance that is finished or that RUN brings to its end. -/

namespace Sys2Proof.Machine

open Sys2Proof.Safety

/-! ### Operands under their effective mode -/

/-- R74: a destination's effective mode is Position, a source's the encoded one. -/
theorem effMode_eq_ite (r : Role) (m : Mode) : effMode r m = if r = .destination then .position else m := by
  cases r <;> rfl

/-- The address of an operand is the one R75 gives under the effective mode (R74). -/
theorem operand_eq_some_iff {s : State} {op : Op} {i a : Nat} {m : Mode} : operand s op i m = some a
    ↔ OperandAt s i (if op.role i = .destination then .position else m) a := by
  rw [operand, effMode_eq_ite, resolve_eq_some_iff]

theorem operand_eq_none_iff {s : State} {op : Op} {i : Nat} {m : Mode} : operand s op i m = none
    ↔ ∀ a, ¬ OperandAt s i (if op.role i = .destination then .position else m) a := by
  simp only [Option.eq_none_iff_forall_ne_some, ne_eq, operand_eq_some_iff]

theorem operandAt_of_source {s : State} {op : Op} {i a : Nat} {m : Mode} (hr : op.role i = .source)
    (h : operand s op i m = some a) : OperandAt s i m a := by
  simpa [hr] using operand_eq_some_iff.1 h

theorem operandAt_of_destination {s : State} {op : Op} {i a : Nat} {m : Mode}
    (hr : op.role i = .destination) (h : operand s op i m = some a) : OperandAt s i .position a := by
  simpa [hr] using operand_eq_some_iff.1 h

/-- Every destination is the operand of one of the instruction's encoded modes. -/
theorem exists_mode_of_destination {i : Instr} {k : Nat} (hr : i.op.role (k + 1) = .destination) :
    ∃ m, i.modes[k]? = some m := by
  obtain ⟨_, hk⟩ := operand_of_role_destination hr
  have hlen : k < i.modes.length := by rwa [modes_length]
  exact ⟨_, List.getElem?_eq_getElem hlen⟩

/-- R78: "no other write path": an instruction that changes memory has a destination. -/
theorem Effect.exists_destination {i : Instr} {s t : State} (he : Effect i s t) (hne : t.mem ≠ s.mem) :
    ∃ k m, i.modes[k]? = some m ∧ i.op.role (k + 1) = .destination := by
  by_contra hnone
  refine hne (he.mem_eq fun k => ?_)
  cases hr : i.op.role (k + 1) with
  | source => rfl
  | destination =>
    obtain ⟨m, hm⟩ := exists_mode_of_destination hr
    exact absurd ⟨k, m, hm, hr⟩ hnone

/-! ### IP -/

/-- R71: a fetch at or above `N` raises AddressFault, and nothing else changes (R136). -/
theorem step_of_fetch_past_end {s : State} (hs : s.status = .running) (hip : s.mem.size ≤ s.ip) :
    step s = .next { s with status := .faulted, fault := some .addressFault } := by
  rcases fetchDecode_cases s with ⟨_, hf⟩ | ⟨hlt, _⟩ | ⟨i, hlt, _⟩
  · exact step_of_fetch_error hs hf
  · omega
  · omega

/-- R100, R101: IP after a jump that does not fault, taken (the first case) or not. -/
theorem Effect.jump_cases {i : Instr} {s t : State} (he : Effect i s t) (ht : t.status ≠ .faulted)
    (hop : i.op = .jt ∨ i.op = .jf) :
    ∃ m1 m2 a1 a2, OperandAt s 1 m1 a1 ∧ OperandAt s 2 m2 a2
      ∧ ((((i = .jt m1 m2 ∧ s.mem.get a1 ≠ 0) ∨ (i = .jf m1 m2 ∧ s.mem.get a1 = 0))
          ∧ (t.ip : Int) = s.mem.get a2)
        ∨ (((i = .jt m1 m2 ∧ s.mem.get a1 = 0) ∨ (i = .jf m1 m2 ∧ s.mem.get a1 ≠ 0))
          ∧ t.ip = s.ip + 3)) := by
  have hsource : ∀ k, i.op.role k = .source := fun k => by rcases hop with h | h <;> rw [h] <;> rfl
  cases he with
  | jump m1 m2 a1 a2 hi h1 h2 htgt =>
    exact ⟨m1, m2, a1, a2, operandAt_of_source (hsource 1) h1, operandAt_of_source (hsource 2) h2,
      .inl ⟨hi, Int.toNat_of_nonneg htgt⟩⟩
  | fallThrough m1 m2 a1 a2 hi h1 h2 =>
    exact ⟨m1, m2, a1, a2, operandAt_of_source (hsource 1) h1, operandAt_of_source (hsource 2) h2,
      .inr ⟨hi, rfl⟩⟩
  | store m1 m2 m3 a1 a2 a3 v hi h1 h2 h3 hv => rcases hi with rfl | rfl | rfl | rfl <;> cases hsource 3
  | input m a v rest hi hd hq => subst hi; cases hsource 1
  | output m a hi hs => subst hi; simp [Instr.op] at hop
  | halt hi => subst hi; simp [Instr.op] at hop
  | _ => exact absurd rfl ht

/-! ### Finished instances and RUN -/

/-- R81: no number of steps changes a finished instance (log 11). -/
theorem coreRun_of_finished {s : State} (hs : s.status ≠ .running) (k : Nat) :
    Host.Core.run Sys2Proof.core k s = .next s := by
  induction k with
  | zero => rfl
  | succ k ih => rw [coreRun_succ (step_of_finished hs), ih]

theorem runLoop_of_finished {s : State} (hs : s.status ≠ .running) (fuel : Nat) :
    runLoop fuel s = some s := by
  cases fuel <;> simp [runLoop, hs]

theorem runLoop_zero_of_running {s : State} (hs : s.status = .running) : runLoop 0 s = none := by
  simp [runLoop, hs]

theorem runLoop_succ_of_running {s u : State} (hs : s.status = .running) (hu : step s = .next u)
    (fuel : Nat) : runLoop (fuel + 1) s = runLoop fuel u := by
  simp [runLoop, hs, hu]

/-- R82: the loop of RUN ends in the first state of stepping that is not Running. -/
theorem runLoop_first_finished {fuel : Nat} {s t : State} (h : runLoop fuel s = some t) :
    ∃ n ≤ fuel, Host.Core.run Sys2Proof.core n s = .next t
      ∧ ∀ j u, j < n → Host.Core.run Sys2Proof.core j s = .next u → u.status = .running := by
  induction fuel generalizing s with
  | zero =>
    by_cases hs : s.status = .running
    · cases h.symm.trans (runLoop_zero_of_running hs)
    · cases h.symm.trans (runLoop_of_finished hs 0)
      exact ⟨0, Nat.le_refl 0, rfl, by simp⟩
  | succ fuel ih =>
    by_cases hs : s.status = .running
    · obtain ⟨v, hv⟩ := step_total s
      obtain ⟨n, hn, hrun, hbefore⟩ := ih ((runLoop_succ_of_running hs hv fuel).symm.trans h)
      refine ⟨n + 1, Nat.succ_le_succ hn, (coreRun_succ hv n).trans hrun, fun j u hj hu => ?_⟩
      cases j with
      | zero => cases hu; exact hs
      | succ j => exact hbefore j u (Nat.lt_of_succ_lt_succ hj) ((coreRun_succ hv j).symm.trans hu)
    · cases h.symm.trans (runLoop_of_finished hs _)
      exact ⟨0, Nat.zero_le _, rfl, by simp⟩

/-- R82: the loop of RUN finds the finished state that stepping reaches, given as many steps. -/
theorem runLoop_of_coreRun {n : Nat} {s t : State} (h : Host.Core.run Sys2Proof.core n s = .next t)
    (ht : t.status ≠ .running) : runLoop n s = some t := by
  induction n generalizing s with
  | zero => cases h; exact runLoop_of_finished ht 0
  | succ n ih =>
    by_cases hs : s.status = .running
    · obtain ⟨v, hv⟩ := step_total s
      rw [coreRun_succ hv] at h
      rw [runLoop_succ_of_running hs hv, ih h]
    · cases h.symm.trans (coreRun_of_finished hs _)
      exact runLoop_of_finished ht _

/-- R121: `Ok` is the outcome of a Halted instance, `Err(FAULT)` that of a Faulted one. -/
theorem outcome_eq_some_iff {t : State} {r : RunResult} : outcome t = some r ↔
    (r = .ok ∧ t.status = .halted) ∨ ∃ k, r = .err k ∧ t.status = .faulted ∧ t.fault = some k := by
  unfold outcome
  cases hs : t.status with
  | running => simp
  | halted => simp [eq_comm]
  | faulted => cases t.fault <;> simp [eq_comm]

theorem run_eq_some_iff {fuel : Nat} {s t : State} {r : RunResult} :
    run fuel s = some (t, r) ↔ runLoop fuel s = some t ∧ outcome t = some r :=
  ⟨runLoop_of_run, fun ⟨hloop, hout⟩ => by simp [run, hloop, hout]⟩

end Sys2Proof.Machine
end

section
/-! PROOFS. The statements about the instruction cycle: resolving, fetching, the advance of IP, the
destination write, and what ends a run. -/

namespace Sys2Proof.Proofs

open Sys2Proof.Machine Sys2Proof.Safety

/-- Settles O13: `OperandAt` is what the resolver answers, case by case. -/
theorem resolverRule : Obligations.ResolverRule :=
  fun _ _ _ _ => resolve_eq_some_iff

/-- Settles O14: one operand without an address is enough for the fault. -/
theorem unresolvableOperandFaults : Obligations.UnresolvableOperandFaults :=
  fun _ _ _ _ hm hnone => exec_of_unresolved hm (operand_eq_none_iff.2 hnone)

/-- Settles O15: what is fetched is what `fetchDecode` answers, and the step runs that. -/
theorem stepRunsDecodedInstruction : Obligations.StepRunsDecodedInstruction :=
  fun _ _ hs hf => step_of_fetches hs hf

/-- Settles O17: fetch at or above `N` answers AddressFault, and its entry writes STATUS and FAULT only. -/
theorem fetchPastEndFaults : Obligations.FetchPastEndFaults :=
  fun _ hs hip => step_of_fetch_past_end hs hip

/-- Settles O18: fetch and decode answer DecodeError from the instruction word alone. -/
theorem undecodableWordFaults : Obligations.UndecodableWordFaults :=
  fun _ hs hip hd => step_of_undecodable hs hip hd

/-- Settles O19, by induction over the steps. -/
theorem finishedInstanceTakesNoStep : Obligations.FinishedInstanceTakesNoStep :=
  fun _ hs => ⟨step_of_finished hs, coreRun_of_finished hs⟩

/-- Settles O57: the state that the steps answer is the one they started from. -/
theorem finishedStateNeverChanges : Obligations.FinishedStateNeverChanges :=
  fun k _ _ hs h => Host.Outcome.next.inj (h.symm.trans (coreRun_of_finished hs k))

/-- Settles O22: a jump by whether it is taken, every other instruction by its width. -/
theorem advanceOfIp : Obligations.AdvanceOfIp := by
  intro s t i hs hf hst ht
  have he : Effect i s t := exec_next_iff.1 ((step_of_fetches hs hf).symm.trans hst)
  refine ⟨fun hop => ?_, fun hop => ?_, fun hop => ?_, fun m1 m2 hi => ?_, fun m1 m2 hi => ?_,
    fun h => he.cfg_eq ▸ (h.step hst).ip, step_of_fetch_past_end⟩
  · rcases hop with h | h | h | h <;> rw [he.ip_eq ht (by simp [h]), h] <;> rfl
  · rcases hop with h | h <;> rw [he.ip_eq ht (by simp [h]), h] <;> rfl
  · rw [he.ip_eq ht (by simp [hop]), hop]
    rfl
  · subst hi
    obtain ⟨n1, n2, a1, a2, h1, h2, hip⟩ := he.jump_cases ht (.inl rfl)
    rcases hip with ⟨⟨hi, hc⟩ | ⟨hi, _⟩, hip⟩ | ⟨⟨hi, hc⟩ | ⟨hi, _⟩, hip⟩ <;> cases hi
    · exact ⟨a1, a2, h1, h2, .inl ⟨hc, hip⟩⟩
    · exact ⟨a1, a2, h1, h2, .inr ⟨hc, hip⟩⟩
  · subst hi
    obtain ⟨n1, n2, a1, a2, h1, h2, hip⟩ := he.jump_cases ht (.inr rfl)
    rcases hip with ⟨⟨hi, _⟩ | ⟨hi, hc⟩, hip⟩ | ⟨⟨hi, _⟩ | ⟨hi, hc⟩, hip⟩ <;> cases hi
    · exact ⟨a1, a2, h1, h2, .inl ⟨hc, hip⟩⟩
    · exact ⟨a1, a2, h1, h2, .inr ⟨hc, hip⟩⟩

/-- Settles O50: the loop of RUN against the steps of the core, in both directions. -/
theorem runReturnsTheOutcome : Obligations.RunReturnsTheOutcome := by
  refine ⟨fun fuel s t r h => ?_, fun n s t h hend => ?_⟩
  · obtain ⟨hloop, hout⟩ := run_eq_some_iff.1 h
    exact ⟨runLoop_first_finished hloop, outcome_eq_some_iff.1 hout⟩
  · obtain ⟨hfin, r, hr⟩ : t.status ≠ .running ∧ ∃ r, outcome t = some r := by
      rcases hend with hhalt | ⟨hfaulted, hfault⟩
      · exact ⟨by simp [hhalt], .ok, outcome_eq_some_iff.2 (.inl ⟨rfl, hhalt⟩)⟩
      · obtain ⟨k, hk⟩ := Option.ne_none_iff_exists'.1 hfault
        exact ⟨by simp [hfaulted], .err k, outcome_eq_some_iff.2 (.inr ⟨k, rfl, hfaulted, hk⟩)⟩
    exact ⟨r, run_eq_some_iff.2 ⟨runLoop_of_coreRun h hfin, hr⟩⟩

/-- Settles O58: without a fault the effect puts one value at the destination's address, which is valid;
an instruction without a destination leaves memory as it is. -/
theorem destinationWriteIsTheOnlyWrite : Obligations.DestinationWriteIsTheOnlyWrite := by
  refine ⟨fun i s t k m hm hr hx ht => ?_, fun op s k a m v _ ha => ?_,
    fun op s k a m hr hcell hget ha => operand_of_destination hr ⟨hcell, hget, ha⟩, fun s t hst hne => ?_⟩
  · have he : Effect i s t := exec_next_iff.1 hx
    rcases he.destination_cases hm hr with ⟨f, rfl⟩ | ⟨a, v, ha, hmem⟩
    · exact absurd rfl ht
    · obtain ⟨_, hget, hlt⟩ := operandAt_of_destination hr ha
      exact ⟨a, hget, hlt, he.size_eq, by simp [hmem],
        fun b hb => he.get_eq hm hr (by simp [ha, Ne.symm hb])⟩
  · rw [Memory.write_ofNat, if_pos (operand_lt ha)]
  · rcases step_next_cases hst with ⟨_, rfl⟩ | ⟨f, _, _, rfl⟩ | ⟨i, _, hf, he⟩
    · exact absurd rfl hne
    · exact absurd rfl hne
    · obtain ⟨k, m, hm, hr⟩ := he.exists_destination hne
      exact ⟨i, k, m, hf, hm, hr⟩

end Sys2Proof.Proofs
end

section
/-! SUPPORT. ADD and MUL: the state a completed store leaves, and each answer of `narrow` (R92) as what the
instruction answers. -/

namespace Sys2Proof.Machine

open Sys2Proof.Safety

/-! ### A completed store -/

/-- R78, R80: the write and the advance change one cell and IP. -/
theorem stored_advance_put (s : State) (a : Nat) (v : Int) (n : Nat) :
    Stored s (advance n (s.setMem (s.mem.put a v))) a v n where
  size := s.mem.put_size a v
  cell := s.mem.get_put_self a v
  others _ hb := s.mem.get_put_ne v hb
  ip := rfl
  cfg := rfl
  inq := rfl
  outq := rfl
  status := rfl
  fault := rfl

/-- An instruction of format F3 that has a value to store answers a state in which it is stored. -/
theorem exists_exec_stored {i : Instr} {m1 m2 m3 : Mode} {s : State} {a1 a2 a3 : Nat} {v : Int}
    (hi : IsF3 i m1 m2 m3) (h1 : OperandAt s 1 m1 a1) (h2 : OperandAt s 2 m2 a2)
    (h3 : OperandAt s 3 .position a3)
    (hv : storedValue s.cfg i.op (s.mem.get a1) (s.mem.get a2) = some v) :
    ∃ t, exec i s = .next t ∧ Stored s t a3 v 4 :=
  ⟨_, exec_store hi h1 h2 h3 hv, stored_advance_put s a3 v 4⟩

/-! ### A result out of range -/

/-- R92 with `OVF = fault`: a result that does not fit a cell raises Overflow. -/
theorem exec_overflow {i : Instr} {m1 m2 m3 : Mode} {s : State} {a1 a2 a3 : Nat} {r : Int}
    (hi : (i = .add m1 m2 m3 ∧ r = s.mem.get a1 + s.mem.get a2)
      ∨ (i = .mul m1 m2 m3 ∧ r = s.mem.get a1 * s.mem.get a2))
    (h1 : OperandAt s 1 m1 a1) (h2 : OperandAt s 2 m2 a2) (h3 : OperandAt s 3 .position a3)
    (ho : s.cfg.ovf = .fault) (hr : ¬ Fits s.cfg r) : exec i s = .next (raise .overflow s) := by
  obtain ⟨hr1, hr2, hr3⟩ : i.op.role 1 = .source ∧ i.op.role 2 = .source ∧ i.op.role 3 = .destination := by
    rcases hi with ⟨rfl, _⟩ | ⟨rfl, _⟩ <;> exact ⟨rfl, rfl, rfl⟩
  exact exec_of_effect (.overflow m1 m2 m3 a1 a2 a3 r hi (operand_of_source hr1 h1)
    (operand_of_source hr2 h2) (operand_of_destination hr3 h3) ho ((inRange_false_iff s.cfg r).2 hr))

/-- R92 with `OVF = wrap`, R7: `narrow` answers a value congruent to the exact result modulo `2^W`, which is
the exact result itself where that fits. -/
theorem exists_narrow_of_wrap {c : Config} {n : Nat} (ho : c.ovf = .wrap) (hn : c.width = some n) (r : Int) :
    ∃ v, narrow c r = some v ∧ (2 : Int) ^ n ∣ r - v := by
  rcases narrow_cases c r with ⟨_, hv⟩ | ⟨_, hfault, _⟩ | ⟨k, hk, _, _, hv⟩
  · exact ⟨r, hv, by simp⟩
  · cases ho.symm.trans hfault
  · cases hn.symm.trans hk
    exact ⟨wrapW n r, hv, by exact_mod_cast wrapW_dvd n r⟩

/-- An instruction of format F3 that stores what `narrow` makes of `r` completes with `OVF = wrap`. -/
theorem exists_exec_wrapped {i : Instr} {m1 m2 m3 : Mode} {s : State} {a1 a2 a3 n : Nat} {r : Int}
    (hi : IsF3 i m1 m2 m3) (h1 : OperandAt s 1 m1 a1) (h2 : OperandAt s 2 m2 a2)
    (h3 : OperandAt s 3 .position a3)
    (hr : storedValue s.cfg i.op (s.mem.get a1) (s.mem.get a2) = narrow s.cfg r)
    (ho : s.cfg.ovf = .wrap) (hc : s.cfg.wf = true) (hn : s.cfg.width = some n) :
    ∃ t v, exec i s = .next t ∧ Stored s t a3 v 4 ∧ Fits s.cfg v ∧ (2 : Int) ^ n ∣ r - v := by
  obtain ⟨v, hv, hdvd⟩ := exists_narrow_of_wrap ho hn r
  obtain ⟨t, ht, hstored⟩ := exists_exec_stored hi h1 h2 h3 (hr.trans hv)
  exact ⟨t, v, ht, hstored, fits_narrow hc hv, hdvd⟩

end Sys2Proof.Machine
end

section
/-! PROOFS. The statements about ADD and MUL: a result in range, and the two answers of `OVF` to one that is
not. -/

namespace Sys2Proof.Proofs

open Sys2Proof.Machine Sys2Proof.Safety

/-- Settles O25: a sum that fits is what `narrow` answers, and the store completes. -/
theorem addWritesSum : Obligations.AddWritesSum :=
  fun _ _ _ _ _ _ _ h1 h2 h3 hfits => exists_exec_stored (.inl rfl) h1 h2 h3 (narrow_of_fits hfits)

/-- Settles O26: as for ADD, with the product. -/
theorem mulWritesProduct : Obligations.MulWritesProduct :=
  fun _ _ _ _ _ _ _ h1 h2 h3 hfits => exists_exec_stored (.inr (.inl rfl)) h1 h2 h3 (narrow_of_fits hfits)

/-- Settles O27: with `OVF = fault` a result that does not fit leads to the fault entry of R136. -/
theorem overflowFaults : Obligations.OverflowFaults :=
  fun _ _ _ _ _ _ _ h1 h2 h3 ho =>
    ⟨exec_overflow (.inl ⟨rfl, rfl⟩) h1 h2 h3 ho, exec_overflow (.inr ⟨rfl, rfl⟩) h1 h2 h3 ho⟩

/-- Settles O28: with `OVF = wrap` `narrow` always answers a value to store, in range and congruent. -/
theorem overflowWraps : Obligations.OverflowWraps :=
  fun _ _ _ _ _ _ _ _ h1 h2 h3 ho hc hn =>
    ⟨exists_exec_wrapped (.inl rfl) h1 h2 h3 rfl ho hc hn,
      exists_exec_wrapped (.inr (.inl rfl)) h1 h2 h3 rfl ho hc hn⟩

end Sys2Proof.Proofs
end

section
/-! SUPPORT. IN on an empty queue and OUT, as what the instruction answers under `OperandAt`. -/

namespace Sys2Proof.Machine

open Sys2Proof.Safety

/-- R95, R133: IN whose destination resolves starves on an empty queue. -/
theorem exec_starved {m1 : Mode} {s : State} {a : Nat} (h : OperandAt s 1 .position a)
    (hq : s.inq = []) : exec (.inp m1) s = .next (raise .inputStarved s) :=
  exec_of_effect (.starved m1 a rfl (operand_of_destination rfl h) hq)

/-- R96: OUT whose source resolves puts the cell it reads at the back of OUTQ. -/
theorem exec_output {m1 : Mode} {s : State} {a : Nat} (h : OperandAt s 1 m1 a) :
    exec (.out m1) s = .next (advance 2 (pushOut (s.mem.get a) s)) :=
  exec_of_effect (.output m1 a rfl (operand_of_source rfl h))

end Sys2Proof.Machine
end

section
/-! PROOFS. The statements about IN and OUT: the front of INQ stored, an empty INQ, and the value added to
OUTQ. -/

namespace Sys2Proof.Proofs

open Sys2Proof.Machine Sys2Proof.Safety

/-- Settles O29: the completed store is made on the state whose INQ has lost its front element. -/
theorem inputTakesFront : Obligations.InputTakesFront :=
  fun _ s a1 v rest hdest hq => ⟨_, exec_input hdest hq, stored_advance_put (s.setInq rest) a1 v 2⟩

/-- Settles O30: IN on an empty queue leads to the fault entry of R136, which writes STATUS and FAULT only. -/
theorem inputStarves : Obligations.InputStarves :=
  fun _ _ _ hdest hq => exec_starved hdest hq

/-- Settles O31: the state OUT answers differs from `s` in OUTQ and IP only. -/
theorem outputAppends : Obligations.OutputAppends :=
  fun _ _ _ hsrc => exec_output hsrc

end Sys2Proof.Proofs
end

section
/-! SUPPORT. JT and JF as their common tail under `OperandAt`, and that tail case by case. -/

namespace Sys2Proof.Machine

open Sys2Proof.Safety

/-! ### The common tail of the jumps -/

/-- R102 (a): a taken jump does not compare its target with `N`. -/
@[simp] theorem jumpIf_true_natCast (d w : Nat) (s : State) : jumpIf true (d : Int) w s = s.setIp d := by
  simp [jumpIf, Int.not_lt.2 (Int.natCast_nonneg d)]

/-- R102 (b): a taken jump checks the sign of its target in its own step. -/
theorem jumpIf_true_of_neg {target : Int} (h : target < 0) (w : Nat) (s : State) :
    jumpIf true target w s = raise .addressFault s := by
  simp [jumpIf, h]

/-- An untaken jump does not look at its target. -/
@[simp] theorem jumpIf_false (target : Int) (w : Nat) (s : State) :
    jumpIf false target w s = advance w s := rfl

/-! ### The two jumps on operands that resolve -/

variable {m1 m2 : Mode} {s : State} {a1 a2 : Nat}

/-- R100: JT is taken when the condition is not 0. -/
theorem exec_jt (h1 : OperandAt s 1 m1 a1) (h2 : OperandAt s 2 m2 a2) :
    exec (.jt m1 m2) s = .next (jumpIf (s.mem.get a1 != 0) (s.mem.get a2) 3 s) :=
  exec_of_jump (.inl ⟨rfl, rfl⟩) (operand_of_source rfl h1) (operand_of_source rfl h2)

/-- R101: JF is taken when the condition is 0. -/
theorem exec_jf (h1 : OperandAt s 1 m1 a1) (h2 : OperandAt s 2 m2 a2) :
    exec (.jf m1 m2) s = .next (jumpIf (s.mem.get a1 == 0) (s.mem.get a2) 3 s) :=
  exec_of_jump (.inr ⟨rfl, rfl⟩) (operand_of_source rfl h1) (operand_of_source rfl h2)

end Sys2Proof.Machine
end

section
/-! PROOFS. The statements about JT and JF: taken, fallen through, and taken to a negative target. -/

namespace Sys2Proof.Proofs

open Sys2Proof.Machine Sys2Proof.Safety

/-- Settles O32: the condition decides between the two answers of the common tail. -/
theorem jumpIfTrueRule : Obligations.JumpIfTrueRule := by
  intro m1 m2 s a1 a2 h1 h2
  refine ⟨fun hc d hd => ?taken, fun hc => ?untaken⟩ <;> rw [exec_jt h1 h2]
  case taken => rw [bne_iff_ne.2 hc, hd, jumpIf_true_natCast]; rfl
  case untaken => rw [hc, bne_self_eq_false, jumpIf_false]; rfl

/-- Settles O33: as for JT, with the condition inverted. -/
theorem jumpIfFalseRule : Obligations.JumpIfFalseRule := by
  intro m1 m2 s a1 a2 h1 h2
  refine ⟨fun hc d hd => ?taken, fun hc => ?untaken⟩ <;> rw [exec_jf h1 h2]
  case taken => rw [beq_iff_eq.2 hc, hd, jumpIf_true_natCast]; rfl
  case untaken => rw [beq_false_of_ne hc, jumpIf_false]; rfl

/-- Settles O34: the fault entry of R136 writes STATUS and FAULT only, so IP stays at the jump. -/
theorem negativeTargetFaults : Obligations.NegativeTargetFaults := by
  intro m1 m2 s a1 a2 h1 h2 hneg
  refine ⟨fun hc => ?jt, fun hc => ?jf⟩
  case jt => rw [exec_jt h1 h2, bne_iff_ne.2 hc, jumpIf_true_of_neg hneg]; rfl
  case jf => rw [exec_jf h1 h2, beq_iff_eq.2 hc, jumpIf_true_of_neg hneg]; rfl

end Sys2Proof.Proofs
end

section
/-! SUPPORT. The value a comparison writes, by the relation it tests. -/

namespace Sys2Proof.Machine

/-- R107: exactly 1 where the relation holds and 0 where it does not. -/
theorem truth_decide (p : Prop) [Decidable p] : truth (decide p) = if p then 1 else 0 :=
  if_congr decide_eq_true_iff rfl rfl

end Sys2Proof.Machine
end

section
/-! PROOFS. The statements about LT and EQ: the truth value of the comparison, stored as 1 or 0. -/

namespace Sys2Proof.Proofs

open Sys2Proof.Machine Sys2Proof.Safety

/-- Settles O35: LT always has a value to store, the truth value of `<` on the integers. -/
theorem lessThanWritesTruth : Obligations.LessThanWritesTruth :=
  fun _ _ _ _ _ _ _ h1 h2 h3 =>
    exists_exec_stored (.inr (.inr (.inl rfl))) h1 h2 h3 (congrArg some (truth_decide _))

/-- Settles O36: as for LT, with equality. -/
theorem equalsWritesTruth : Obligations.EqualsWritesTruth :=
  fun _ _ _ _ _ _ _ h1 h2 h3 =>
    exists_exec_stored (.inr (.inr (.inr rfl))) h1 h2 h3 (congrArg some (truth_decide _))

end Sys2Proof.Proofs
end

section
/-! PROOFS. The statement about HLT: its effect, and the step of the state it answers. -/

namespace Sys2Proof.Proofs

open Sys2Proof.Machine

/-- Settles O37: the state HLT answers is finished, so R81 covers its step. -/
theorem haltEndsTheRun : Obligations.HaltEndsTheRun := by
  intro s
  refine ⟨?effect, ?noStep⟩
  case effect => exact exec_of_effect (.halt rfl)
  case noStep => exact step_of_finished (by simp)

end Sys2Proof.Proofs
end

section
/-! SUPPORT. The host transactions one by one: what each accepts and answers, and what it refuses. -/

namespace Sys2Proof.Machine

open Sys2Proof.Safety

/-! ### SEED, PUSH_INPUT and READ_MEM -/

/-- What SEED accepts, and what it then answers (R117, R118, R124). -/
theorem seed_eq_ok_iff {noun verb : Int} {s t : State} :
    seed noun verb s = .ok t ↔ s.status = .running ∧ 3 ≤ s.mem.size ∧ Fits s.cfg noun ∧ Fits s.cfg verb
      ∧ t = s.setMem ((s.mem.put 1 noun).put 2 verb) := by
  constructor
  · intro h
    obtain ⟨hs, hnoun, hverb, m, m', h1, h2, rfl⟩ := seed_ok h
    obtain ⟨k1, hk1, _, rfl⟩ := Memory.write_eq_some h1
    obtain ⟨k2, hk2, hlt, rfl⟩ := Memory.write_eq_some h2
    obtain rfl : k1 = 1 := by omega
    obtain rfl : k2 = 2 := by omega
    exact ⟨hs, hlt, hnoun, hverb, rfl⟩
  · rintro ⟨hs, hsize, hnoun, hverb, rfl⟩
    have h1 : s.mem.write 1 noun = some (s.mem.put 1 noun) :=
      (s.mem.write_ofNat 1 noun).trans (if_pos (by omega))
    have h2 : (s.mem.put 1 noun).write 2 verb = some ((s.mem.put 1 noun).put 2 verb) :=
      ((s.mem.put 1 noun).write_ofNat 2 verb).trans (if_pos (by rw [Memory.put_size]; omega))
    simp [seed, hs, (inRange_iff_fits _ _).2 hnoun, (inRange_iff_fits _ _).2 hverb, h1, h2]

theorem pushInput_of_fits {v : Int} {s : State} (h : Fits s.cfg v) :
    pushInput v s = .ok (s.setInq (s.inq ++ [v])) :=
  pushInput_ok_iff.2 ⟨h, rfl⟩

/-- READ_MEM of a valid address (R122). -/
theorem readMem_ofNat {a : Nat} {s : State} (h : a < s.mem.size) :
    readMem (a : Int) s = .ok (s.mem.get a) := by
  simp [readMem, Memory.read_ofNat, h]

/-- READ_MEM of an address outside `[0, N)` (R122, D13). -/
theorem readMem_of_invalid {a : Int} {s : State} (h : a < 0 ∨ (s.mem.size : Int) ≤ a) :
    readMem a s = .error .addressOutOfRange := by
  have hnone : s.mem.read a = none := (s.mem.read_eq_none_iff a).2 (by omega)
  simp [readMem, hnone]

@[simp] theorem readAll_length (s : State) : (readAll s).length = s.mem.size := by
  simp [readAll, Memory.toList]

theorem readAll_getElem? {a : Nat} {s : State} (h : a < s.mem.size) :
    (readAll s)[a]? = some (s.mem.get a) := by
  simp [readAll, Memory.toList, h]

/-! ### RUN of a finished instance -/

theorem run_of_halted {s : State} (hs : s.status = .halted) (fuel : Nat) : run fuel s = some (s, .ok) :=
  run_eq_some_iff.2 ⟨runLoop_of_finished (by simp [hs]) fuel, outcome_eq_some_iff.2 (.inl ⟨rfl, hs⟩)⟩

theorem run_of_faulted {s : State} {k : FaultKind} (hs : s.status = .faulted) (hk : s.fault = some k)
    (fuel : Nat) : run fuel s = some (s, .err k) :=
  run_eq_some_iff.2
    ⟨runLoop_of_finished (by simp [hs]) fuel, outcome_eq_some_iff.2 (.inr ⟨k, rfl, hs, hk⟩)⟩

/-- R138: RUN takes no step of a finished instance. -/
theorem eq_of_run_of_finished {fuel : Nat} {s t : State} {r : RunResult} (hs : s.status ≠ .running)
    (h : run fuel s = some (t, r)) : t = s :=
  Option.some.inj ((run_eq_some_iff.1 h).1.symm.trans (runLoop_of_finished hs fuel))

/-! ### Draining OUTQ and the relay -/

/-- POP_OUTPUT returns the front of OUTQ, None of an empty one (R120). -/
theorem popOutput_result (s : State) : (popOutput s).1 = s.outq.head? := by
  unfold popOutput
  cases s.outq <;> rfl

theorem popTimes_succ (n : Nat) (s : State) :
    popTimes (n + 1) s = (s.outq.head? :: (popTimes n (s.setOutq s.outq.tail)).1,
      (popTimes n (s.setOutq s.outq.tail)).2) := by
  rw [← popOutput_result, ← popOutput_state]
  rfl

/-- An instance with nothing in OUTQ answers None to every POP_OUTPUT and stays as it is (R120). -/
theorem popTimes_setOutq_nil (n : Nat) (s : State) :
    popTimes n (s.setOutq []) = (List.replicate n none, s.setOutq []) := by
  induction n with
  | zero => rfl
  | succ n ih =>
    have htail : (s.setOutq []).setOutq (s.setOutq []).outq.tail = s.setOutq [] := rfl
    rw [popTimes_succ, htail, ih]
    rfl

/-- POP_OUTPUT repeated: the outputs front first, then None (R120). -/
theorem popTimes_setOutq (q : List Word) (n : Nat) (s : State) :
    popTimes (q.length + n) (s.setOutq q) = (q.map some ++ List.replicate n none, s.setOutq []) := by
  induction q with
  | nil => simpa using popTimes_setOutq_nil n s
  | cons v q ih =>
    have hlen : (v :: q).length + n = q.length + n + 1 := Nat.add_right_comm _ _ _
    have htail : (s.setOutq (v :: q)).setOutq (s.setOutq (v :: q)).outq.tail = s.setOutq q := rfl
    rw [hlen, popTimes_succ, htail, ih]
    rfl

/-- Values that all fit go to the back of INQ in order (R119, R126). -/
theorem pushAll_of_fits {q : List Word} {s : State} (h : ∀ v ∈ q, Fits s.cfg v) :
    pushAll q s = .ok (s.setInq (s.inq ++ q)) := by
  induction q generalizing s with
  | nil => simp [pushAll, State.setInq]
  | cons v q ih =>
    obtain ⟨hv, hq⟩ := List.forall_mem_cons.1 h
    have hrest : pushAll q (s.setInq (s.inq ++ [v])) = .ok (s.setInq (s.inq ++ [v] ++ q)) := ih hq
    simpa [pushAll, pushInput_of_fits hv] using hrest

end Sys2Proof.Machine
end

section
/-! SUPPORT. A host transaction on a rack, from what it does to the one instance its handle names. -/

namespace Sys2Proof.Machine

open Sys2Proof.Safety

/-- The transactions on a live instance, other than LOAD (R115). -/
theorem hostAct_of_actOn_ok {fuel h : Nat} {tx : HostTx} {s : State} {rack : Rack} {slot : Option State}
    {r : TxResult} (hs : rack[h]? = some (some s)) (ha : actOn fuel tx s = .ok (slot, r)) :
    hostAct fuel h tx rack = .done (rack.set h slot) r := by
  cases tx with
  | load c program => cases ha
  | _ => simp only [hostAct, hs, ha]

theorem hostAct_of_actOn_refused {fuel h : Nat} {tx : HostTx} {s : State} {rack : Rack} {e : TxRefusal}
    (hs : rack[h]? = some (some s)) (hload : ∀ c program, tx ≠ .load c program)
    (ha : actOn fuel tx s = .error (some e)) : hostAct fuel h tx rack = .refused e := by
  cases tx with
  | load c program => exact absurd rfl (hload c program)
  | _ => simp only [hostAct, hs, ha]

theorem hostAct_of_run_none {fuel h : Nat} {s : State} {rack : Rack} (hs : rack[h]? = some (some s))
    (hr : run fuel s = none) : hostAct fuel h .run rack = .noReturn := by
  simp only [hostAct, hs, actOn, hr]

/-- R125: on the handle of a dropped instance every transaction but LOAD is refused. -/
theorem hostAct_of_dropped {fuel h : Nat} {tx : HostTx} {rack : Rack} (hs : rack[h]? = some none)
    (hload : ∀ c program, tx ≠ .load c program) : hostAct fuel h tx rack = .refused .noInstance := by
  cases tx with
  | load c program => exact absurd rfl (hload c program)
  | _ => simp only [hostAct, hs]

theorem getElem?_set_of_some {rack : Rack} {h : Nat} {s : State} (hs : rack[h]? = some (some s))
    (slot : Option State) : (rack.set h slot)[h]? = some slot :=
  List.getElem?_set_self (List.getElem?_eq_some_iff.1 hs).1

/-- A transaction that answers for the instance of its handle is done, and its slot stands at the handle. -/
theorem exists_hostAct_done {fuel h : Nat} {tx : HostTx} {s : State} {rack : Rack} {slot : Option State}
    {r : TxResult} (hs : rack[h]? = some (some s)) (ha : actOn fuel tx s = .ok (slot, r)) :
    ∃ rack', hostAct fuel h tx rack = .done rack' r ∧ rack'[h]? = some slot :=
  ⟨rack.set h slot, hostAct_of_actOn_ok hs ha, getElem?_set_of_some hs slot⟩

/-- R116: LOAD puts the new instance in a new place, whatever handle it is asked on. -/
theorem exists_hostAct_load {c : Config} {program : List Word} {u : State} (hl : load c program = .ok u)
    (fuel h : Nat) (rack : Rack) : ∃ rack',
      hostAct fuel h (.load c program) rack = .done rack' (.created rack.length)
        ∧ rack'[rack.length]? = some (some u) :=
  ⟨rack ++ [some u], by simp only [hostAct, hl], List.getElem?_concat_length⟩

/-- R23, R125: a place of the rack keeps its slot, or it holds the instance that the transaction acted on
and now has the slot that `actOn` answers. -/
theorem hostAct_done_slot {fuel h j : Nat} {tx : HostTx} {rack rack' : Rack} {r : TxResult}
    {slot : Option State} (hd : hostAct fuel h tx rack = .done rack' r) (hj : rack[j]? = some slot) :
    rack'[j]? = some slot ∨ ∃ s slot', slot = some s ∧ actOn fuel tx s = .ok (slot', r)
      ∧ rack'[j]? = some slot' := by
  rcases hostAct_done_cases hd with ⟨_, _, _, _, _, rfl, _⟩ | ⟨_, s, slot', hs, ha, rfl⟩
  · exact .inl ((List.getElem?_append_left (List.getElem?_eq_some_iff.1 hj).1).trans hj)
  · by_cases heq : j = h
    · subst heq
      exact .inr ⟨s, slot', Option.some.inj (hj.symm.trans hs), ha, getElem?_set_of_some hs slot'⟩
    · exact .inl ((List.getElem?_set_ne (Ne.symm heq)).trans hj)

/-- R125, R138: a transaction on a finished instance drops it or changes its queues only. -/
theorem actOn_of_finished {fuel : Nat} {tx : HostTx} {s : State} {slot : Option State} {r : TxResult}
    (hs : s.status ≠ .running) (ha : actOn fuel tx s = .ok (slot, r)) :
    slot = none ∨ ∃ inq outq, slot = some ((s.setInq inq).setOutq outq) := by
  have same : ∃ inq outq, some s = some ((s.setInq inq).setOutq outq) := ⟨s.inq, s.outq, rfl⟩
  cases tx with
  | load c program => cases ha
  | seed noun verb =>
    simp only [actOn] at ha
    split at ha <;> cases ha
    rename_i t ht
    exact absurd (seed_ok ht).1 hs
  | pushInput v =>
    simp only [actOn] at ha
    split at ha <;> cases ha
    rename_i t ht
    obtain ⟨_, rfl⟩ := pushInput_ok_iff.1 ht
    exact .inr ⟨s.inq ++ [v], s.outq, rfl⟩
  | popOutput =>
    cases ha
    exact .inr ⟨s.inq, s.outq.tail, congrArg some (popOutput_state s)⟩
  | run =>
    simp only [actOn] at ha
    split at ha <;> cases ha
    rename_i t ht
    exact .inr (eq_of_run_of_finished hs ht ▸ same)
  | readMem a =>
    simp only [actOn] at ha
    split at ha <;> cases ha
    exact .inr same
  | readAll => cases ha; exact .inr same
  | drop => cases ha; exact .inl rfl

end Sys2Proof.Machine
end

section
/-! PROOFS. The statements about the host transactions: one instance, the relay between two, and the rack. -/

namespace Sys2Proof.Proofs

open Sys2Proof.Machine Sys2Proof.Safety

/-- Settles O2: the two conditions are those LOAD accepts a program under. -/
theorem loadRefusesIllegalPrograms : Obligations.LoadRefusesIllegalPrograms := by
  intro c program hbad s hl
  obtain ⟨hvalues, hlength, _⟩ := load_ok_iff.1 hl
  rcases hbad with ⟨v, hv, hfit⟩ | hlen
  · exact hfit (hvalues v hv)
  · exact hlen hlength

/-- Settles O45: the two writes of SEED, each read back past the other. -/
theorem seedWritesCellsOneAndTwo : Obligations.SeedWritesCellsOneAndTwo := by
  intro noun verb s hs hsize hnoun hverb
  refine ⟨(s.mem.put 1 noun).put 2 verb, seed_eq_ok_iff.2 ⟨hs, hsize, hnoun, hverb, rfl⟩, rfl, ?_, ?_, ?_⟩
  · rw [Memory.get_put_ne _ _ (by decide), Memory.get_put_self]
  · exact Memory.get_put_self _ _ _
  · intro a h1 h2
    rw [Memory.get_put_ne _ _ h2, Memory.get_put_ne _ _ h1]

/-- Settles O46: each clause denies one of the conditions SEED accepts under. -/
theorem seedRefusals : Obligations.SeedRefusals := by
  intro noun verb s hbad t ht
  obtain ⟨hs, hsize, hnoun, hverb, _⟩ := seed_eq_ok_iff.1 ht
  rcases hbad with h | h | h | h
  · exact h hs
  · omega
  · exact h hnoun
  · exact h hverb

/-- Settles O47: what PUSH_INPUT accepts and what it then answers. -/
theorem pushInputAppends : Obligations.PushInputAppends :=
  fun _ _ => ⟨pushInput_of_fits, fun hn _ ht => hn (pushInput_ok_iff.1 ht).1⟩

/-- Settles O48, by induction over OUTQ and then over the further pops. -/
theorem outputsDrainInOrder : Obligations.OutputsDrainInOrder :=
  fun s n => popTimes_setOutq s.outq n s

/-- Settles O49: a read by the bounds check of its address, and the whole memory position by position. -/
theorem readMemRule : Obligations.ReadMemRule := by
  intro s
  refine ⟨fun a ha => ⟨readMem_ofNat ha, readAll_getElem? ha⟩, fun a ha v hv => ?_, readAll_length s⟩
  cases hv.symm.trans (readMem_of_invalid ha)

/-- Settles O51: the loop ends at once, and a pushed value touches neither STATUS nor FAULT. -/
theorem runOnFinishedInstance : Obligations.RunOnFinishedInstance := by
  intro fuel s
  refine ⟨fun hs => run_of_halted hs fuel, fun k hs hk => run_of_faulted hs hk fuel, fun v t hs hk ht => ?_⟩
  obtain ⟨_, rfl⟩ := pushInput_ok_iff.1 ht
  exact run_of_faulted (s := s.setInq (s.inq ++ [v])) hs hk fuel

/-- Settles O54: all outputs of the one are pushed in order, and popping them empties its OUTQ. -/
theorem relayKeepsOrder : Obligations.RelayKeepsOrder := by
  intro a b hfit
  have hpop : (popTimes a.outq.length a).2 = a.setOutq [] :=
    congrArg Prod.snd (popTimes_setOutq a.outq 0 a)
  simp only [relay, pushAll_of_fits hfit, hpop]
  rfl

/-- Settles O55: each transaction by what `actOn` answers for the instance of the handle. -/
theorem transactionsActOnTheirInstance : Obligations.TransactionsActOnTheirInstance := by
  intro fuel h s rack hs
  refine ⟨?seed, ?seedRefused, ?push, ?pushRefused, ?pop, ?run, hostAct_of_run_none hs, ?read,
    ?readRefused, exists_hostAct_done hs rfl, ?drop, fun _ _ _ hl => exists_hostAct_load hl fuel h rack⟩
  case seed => exact fun noun verb t ht => exists_hostAct_done hs (by simp only [actOn, ht])
  case seedRefused =>
    exact fun noun verb e he => hostAct_of_actOn_refused hs (by simp) (by simp only [actOn, he])
  case push => exact fun v t ht => exists_hostAct_done hs (by simp only [actOn, ht])
  case pushRefused =>
    exact fun v e he => hostAct_of_actOn_refused hs (by simp) (by simp only [actOn, he])
  case pop =>
    have hpop : actOn fuel .popOutput s = .ok (some (s.setOutq s.outq.tail), .popped s.outq.head?) := by
      simp only [actOn, popOutput_state, popOutput_result]
    exact exists_hostAct_done hs hpop
  case run => exact fun t r hr => exists_hostAct_done hs (by simp only [actOn, hr])
  case read => exact fun a ha => exists_hostAct_done hs (by simp only [actOn, readMem_ofNat ha])
  case readRefused =>
    exact fun a ha => ⟨.addressOutOfRange,
      hostAct_of_actOn_refused hs (by simp) (by simp only [actOn, readMem_of_invalid ha])⟩
  case drop =>
    obtain ⟨rack', hd, hnone⟩ := exists_hostAct_done (fuel := fuel) (tx := .drop) hs rfl
    exact ⟨rack', hd, hnone, fun _ _ hload => hostAct_of_dropped hnone hload⟩

/-- Settles O56: LOAD only appends, and at its handle a transaction leaves of a finished instance all but
the queues. -/
theorem instanceIsNeverRearmed : Obligations.InstanceIsNeverRearmed := by
  intro fuel h j tx rack rack' r hd
  refine ⟨fun s hs hfin => ?finished, fun hnone => ?dropped⟩
  case finished =>
    rcases hostAct_done_slot hd hs with hsame | ⟨_, slot, ⟨⟩, ha, hslot⟩
    · exact .inr ⟨s, hsame, rfl, rfl, rfl, rfl, rfl⟩
    · rcases actOn_of_finished hfin ha with rfl | ⟨inq, outq, rfl⟩
      · exact .inl hslot
      · exact .inr ⟨_, hslot, rfl, rfl, rfl, rfl, rfl⟩
  case dropped =>
    rcases hostAct_done_slot hd hnone with hsame | ⟨_, _, ⟨⟩, _⟩
    exact hsame

end Sys2Proof.Proofs
end

section
/-! SUPPORT. The causes of each kind of fault: a step from a Running instance ends Faulted exactly by one of
them, and what every step keeps. -/

namespace Sys2Proof.Machine

open Sys2Proof.Safety

/-! ### What every step keeps -/

/-- R11, R22: no step changes `N` or the configuration. -/
theorem step_keeps_size_cfg {s t : State} (h : step s = .next t) :
    t.mem.size = s.mem.size ∧ t.cfg = s.cfg := by
  rcases step_next_cases h with ⟨_, rfl⟩ | ⟨k, _, _, rfl⟩ | ⟨i, _, _, he⟩
  · exact ⟨rfl, rfl⟩
  · exact ⟨rfl, rfl⟩
  · exact ⟨he.size_eq, he.cfg_eq⟩

/-! ### Fault kinds and their causes -/

/-- With `W = inf` every value fits, so only a finite width leaves one out (R5). -/
theorem width_ne_none_of_not_fits {c : Config} {v : Int} (h : ¬ Fits c v) : c.width ≠ none :=
  fun hw => h fun _ hn => nomatch hw.symm.trans hn

/-- The causes of each kind of fault, read off the state before the step (R131 to R134). -/
def FaultCause (s : State) : FaultKind → Prop
  | .decodeError => s.ip < s.mem.size ∧ ∀ i, decode s.cfg (s.mem.get s.ip) ≠ .ok i
  | .inputStarved => s.inq = [] ∧ ∃ m a, Fetches s (.inp m) ∧ OperandAt s 1 .position a
  | .overflow => s.cfg.ovf = .fault ∧ s.cfg.width ≠ none
      ∧ ∃ m1 m2 m3 a1 a2 a3, OperandAt s 1 m1 a1 ∧ OperandAt s 2 m2 a2 ∧ OperandAt s 3 .position a3
        ∧ ((Fetches s (.add m1 m2 m3) ∧ ¬ Fits s.cfg (s.mem.get a1 + s.mem.get a2))
          ∨ (Fetches s (.mul m1 m2 m3) ∧ ¬ Fits s.cfg (s.mem.get a1 * s.mem.get a2)))
  | .addressFault => s.mem.size ≤ s.ip
      ∨ (∃ i k m, Fetches s i ∧ i.modes[k]? = some m ∧ ∀ a,
          ¬ OperandAt s (k + 1) (if i.op.role (k + 1) = .destination then .position else m) a)
      ∨ ∃ m1 m2 a1 a2, OperandAt s 1 m1 a1 ∧ OperandAt s 2 m2 a2 ∧ s.mem.get a2 < 0
        ∧ ((Fetches s (.jt m1 m2) ∧ s.mem.get a1 ≠ 0) ∨ (Fetches s (.jf m1 m2) ∧ s.mem.get a1 = 0))

/-- Every cause leads to the fault entry of its kind (R136). -/
theorem FaultCause.step_eq_raise {s : State} {k : FaultKind} (hs : s.status = .running)
    (hc : FaultCause s k) : step s = .next (raise k s) := by
  cases k with
  | decodeError =>
    obtain ⟨hip, hd⟩ := hc
    exact step_of_undecodable hs hip hd
  | inputStarved =>
    obtain ⟨hq, m, a, hf, ha⟩ := hc
    exact (step_of_fetches hs hf).trans (exec_starved ha hq)
  | overflow =>
    obtain ⟨ho, _, m1, m2, m3, a1, a2, a3, h1, h2, h3, ⟨hf, hr⟩ | ⟨hf, hr⟩⟩ := hc
    · exact (step_of_fetches hs hf).trans (exec_overflow (.inl ⟨rfl, rfl⟩) h1 h2 h3 ho hr)
    · exact (step_of_fetches hs hf).trans (exec_overflow (.inr ⟨rfl, rfl⟩) h1 h2 h3 ho hr)
  | addressFault =>
    obtain hip | ⟨i, j, m, hf, hm, hn⟩ | ⟨m1, m2, a1, a2, h1, h2, hneg, ⟨hf, hz⟩ | ⟨hf, hz⟩⟩ := hc
    · exact step_of_fetch_past_end hs hip
    · exact (step_of_fetches hs hf).trans (exec_of_unresolved hm (operand_eq_none_iff.2 hn))
    · rw [step_of_fetches hs hf, exec_jt h1 h2, bne_iff_ne.2 hz, jumpIf_true_of_neg hneg]
    · rw [step_of_fetches hs hf, exec_jf h1 h2, beq_iff_eq.2 hz, jumpIf_true_of_neg hneg]

/-- R71, R72: what stops fetch and decode is the cause of the fault they answer. -/
theorem faultCause_of_fetch_error {s : State} {k : FaultKind} (h : fetchDecode s = .error k) :
    FaultCause s k := by
  rcases fetchDecode_cases s with ⟨hip, hf⟩ | ⟨hip, ⟨why, hd⟩, hf⟩ | ⟨i, _, _, hf⟩ <;> cases h.symm.trans hf
  · exact .inl hip
  · exact ⟨hip, fun i hok => nomatch hd.symm.trans hok⟩

/-- An instruction that faults enters the fault of one kind, and its guard is a cause of that kind. -/
theorem Effect.exists_faultCause {i : Instr} {s t : State} (he : Effect i s t) (hf : Fetches s i)
    (hs : s.status = .running) (ht : t.status = .faulted) : ∃ k, t = raise k s ∧ FaultCause s k := by
  cases he with
  | unresolved j m hm hn =>
    exact ⟨_, rfl, .inr (.inl ⟨i, j, m, hf, hm, operand_eq_none_iff.1 hn⟩)⟩
  | overflow m1 m2 m3 a1 a2 a3 r hi h1 h2 h3 ho hr =>
    have hnf := (inRange_false_iff s.cfg r).1 hr
    refine ⟨_, rfl, ho, width_ne_none_of_not_fits hnf, m1, m2, m3, a1, a2, a3, ?_⟩
    rcases hi with ⟨rfl, rfl⟩ | ⟨rfl, rfl⟩
    · exact ⟨operandAt_of_source rfl h1, operandAt_of_source rfl h2, operandAt_of_destination rfl h3,
        .inl ⟨hf, hnf⟩⟩
    · exact ⟨operandAt_of_source rfl h1, operandAt_of_source rfl h2, operandAt_of_destination rfl h3,
        .inr ⟨hf, hnf⟩⟩
  | starved m a hi hd hq =>
    subst hi
    exact ⟨_, rfl, hq, m, a, hf, operandAt_of_destination rfl hd⟩
  | badTarget m1 m2 a1 a2 hi h1 h2 hneg =>
    refine ⟨_, rfl, .inr (.inr ⟨m1, m2, a1, a2, ?_⟩)⟩
    rcases hi with ⟨rfl, hz⟩ | ⟨rfl, hz⟩
    · exact ⟨operandAt_of_source rfl h1, operandAt_of_source rfl h2, hneg, .inl ⟨hf, hz⟩⟩
    · exact ⟨operandAt_of_source rfl h1, operandAt_of_source rfl h2, hneg, .inr ⟨hf, hz⟩⟩
  | halt => cases ht
  | store | input | output | jump | fallThrough => cases hs.symm.trans ht

/-- R130, R136: a step that ends Faulted answers the fault entry of a kind that has a cause. -/
theorem exists_faultCause_of_step {s t : State} (hs : s.status = .running) (hst : step s = .next t)
    (ht : t.status = .faulted) : ∃ k, t = raise k s ∧ FaultCause s k := by
  rcases step_next_cases hst with ⟨hn, _⟩ | ⟨k, _, hk, rfl⟩ | ⟨i, _, hf, he⟩
  · exact absurd hs hn
  · exact ⟨k, rfl, faultCause_of_fetch_error hk⟩
  · exact he.exists_faultCause hf hs ht

/-- The kind a faulting step writes is the one that has a cause: no two kinds have one together. -/
theorem fault_eq_some_iff_faultCause {s t : State} (hs : s.status = .running) (hst : step s = .next t)
    (ht : t.status = .faulted) (k : FaultKind) : t.fault = some k ↔ FaultCause s k := by
  constructor
  · intro hk
    obtain ⟨j, rfl, hc⟩ := exists_faultCause_of_step hs hst ht
    cases hk
    exact hc
  · intro hc
    cases hst.symm.trans (hc.step_eq_raise hs)
    rfl

end Sys2Proof.Machine
end

section
/-! PROOFS. The statements about faults: their entry, their causes, and that every step answers a state. -/

namespace Sys2Proof.Proofs

open Sys2Proof.Machine

/-- Settles O20: the fault entry writes STATUS and FAULT only, and what it answers is finished. -/
theorem faultsArePrecise : Obligations.FaultsArePrecise := by
  intro s t hs hst ht
  obtain ⟨k, rfl, _⟩ := exists_faultCause_of_step hs hst ht
  exact ⟨k, rfl, step_of_finished (by simp)⟩

/-- Settles O21: the four clauses are the four kinds of `FaultCause`. -/
theorem faultCauses : Obligations.FaultCauses := by
  intro s t hs hst ht
  have hcause := fault_eq_some_iff_faultCause hs hst ht
  exact ⟨hcause .decodeError, hcause .inputStarved, hcause .overflow, hcause .addressFault⟩

/-- Settles O24: `exec` refuses nothing, and no effect of an instruction touches `N` or the configuration. -/
theorem everyStepAnswersANextState : Obligations.EveryStepAnswersANextState := by
  intro s
  obtain ⟨t, ht⟩ := step_total s
  exact ⟨t, ht, step_keeps_size_cfg ht⟩

end Sys2Proof.Proofs
end

section
/-! SUPPORT. The legal words of a configuration, listed: those of each operation by its format (R53). -/

namespace Sys2Proof

/-- The words `C B A OP` of the format with `n` operands (R53) under the id `id`: each mode digit the
format has is 0 or 1, every other digit is 0. -/
def formatWords (id : Int) : Nat → List Int
  | 0 => [id]
  | 1 => [id, 100 + id]
  | 2 => [id, 100 + id, 1000 + id, 1100 + id]
  | _ => [id, 100 + id, 1000 + id, 1100 + id, 10000 + id, 10100 + id, 11000 + id, 11100 + id]

theorem exists_mode_iff {p : Mode → Prop} : (∃ m, p m) ↔ p .position ∨ p .immediate := by
  refine ⟨?_, fun h => h.elim (⟨_, ·⟩) (⟨_, ·⟩)⟩
  rintro ⟨_ | _, h⟩
  · exact .inl h
  · exact .inr h

theorem exists_op_iff {p : Op → Prop} : (∃ op, p op) ↔ ∃ op ∈ Op.all, p op :=
  ⟨fun ⟨op, h⟩ => ⟨op, mem_opAll op, h⟩, fun ⟨op, _, h⟩ => ⟨op, h⟩⟩

/-- An instruction is an operation with three modes, those beyond its operand count dropped. -/
theorem exists_instr_iff {p : Instr → Prop} :
    (∃ i, p i) ↔ ∃ op m1 m2 m3, p (instrOf op m1 m2 m3) := by
  refine ⟨fun ⟨i, h⟩ => ?_, fun ⟨op, m1, m2, m3, h⟩ => ⟨_, h⟩⟩
  obtain ⟨m1, m2, m3, hi⟩ := Machine.exists_eq_instrOf i
  exact ⟨i.op, m1, m2, m3, hi ▸ h⟩

/-- R51, R53: the encoded words of one operation are those of its format. -/
theorem exists_encode_instrOf_iff {c : Config} {op : Op} {w : Int} :
    (∃ m1 m2 m3, encode c (instrOf op m1 m2 m3) = w)
      ↔ w ∈ formatWords (c.opmap.get op) op.operands := by
  simp only [encode, instrOf_op, instrOf_modes, exists_mode_iff]
  generalize c.opmap.get op = id
  generalize op.operands = n
  match n with
  | 0 | 1 | 2 | _ + 3 =>
    simp only [List.take_zero, List.take_succ_cons, List.take_nil, List.getElem?_nil, List.getElem?_cons_zero,
      List.getElem?_cons_succ, encodedDigit, modeDigit, formatWords, List.mem_cons, List.not_mem_nil,
      or_self, or_false]
    omega

/-- R57: decoding reads nothing of a configuration but `OPMAP` and `OPSET`. -/
theorem decode_congr {c d : Config} (hmap : c.opmap = d.opmap) (hset : c.opset = d.opset) (w : Int) :
    decode c w = decode d w := by
  simp only [decode, decodeNat, opOf, hmap, hset]

/-- R57, R62: in a legal configuration the words that decode are the encoded instructions of `OPSET`. -/
theorem exists_decode_iff_encode {c : Config} {w : Int} (hc : c.wf = true) :
    (∃ i, decode c w = .ok i) ↔ ∃ i : Instr, i.wf c = true ∧ encode c i = w :=
  ⟨fun ⟨i, h⟩ => ⟨i, (Proofs.decodeThenEncode c w i h).symm⟩,
    fun ⟨i, hi, hw⟩ => ⟨i, hw ▸ Proofs.encodeThenDecode c i hc hi⟩⟩

/-- R53, R60: the legal words of a legal configuration are those of the formats of `OPSET`'s operations. -/
theorem exists_decode_iff_formatWords {c : Config} {w : Int} (hc : c.wf = true) :
    (∃ i, decode c w = .ok i)
      ↔ ∃ op ∈ Op.all, c.opset.get op = true ∧ w ∈ formatWords (c.opmap.get op) op.operands := by
  rw [exists_decode_iff_encode hc, exists_instr_iff, ← exists_op_iff]
  simp only [Instr.wf, instrOf_op, exists_and_left, exists_encode_instrOf_iff]

end Sys2Proof
end

section
/-! PROOFS. The statement that lists the legal words of the default tables. -/

namespace Sys2Proof.Proofs

/-- Settles O7: the default tables have four operations of three operands, two of two, two of one and HLT. -/
theorem legalWordsAreTheFortyFive : Obligations.LegalWordsAreTheFortyFive := by
  intro c w hmap hset
  have hdecode : decode c w = decode Config.default w := decode_congr hmap hset w
  rw [hdecode, exists_decode_iff_formatWords (by decide)]
  change _ ↔ (∃ k ∈ [(1 : Int), 2, 7, 8], w ∈ formatWords k 3)
    ∨ (∃ k ∈ [(5 : Int), 6], w ∈ formatWords k 2) ∨ (∃ k ∈ [(3 : Int), 4], w ∈ formatWords k 1) ∨ w = 99
  have hhlt : w ∈ formatWords 99 0 ↔ w = 99 := List.mem_singleton
  simp only [Op.all, Config.default, Config.defaultOpmap, Config.allOps, PerOp.get, Op.operands,
    List.exists_mem_cons_iff, List.not_mem_nil, false_and, exists_false, or_false, true_and,
    Nat.cast_ofNat, Nat.cast_one, hhlt]
  tauto

end Sys2Proof.Proofs
end
